-- ==== Sys2Proof/Word.lean ====
section
/-! DEFINITION. The word types of the CRCE: 32-bit registers and command words (00_scope.md R6) and bytes. All values are
unsigned and bit 0 is the least significant bit (00_scope.md R7). -/

namespace Sys2Proof

/-- A 32-bit register or command word (00_scope.md R6, 30_encoding.md R70). -/
abbrev Word := BitVec 32

/-- A data byte or a selector code, the 8 bits of a command's ARG field (30_encoding.md R71). -/
abbrev Byte := BitVec 8

end Sys2Proof
end

