-- ==== Sys2Proof/Syntax.lean ====
section
/-! DEFINITION. The CRCE command set, version 1 (30_encoding.md R72): one constructor per row of spec/opcode_table.json. -/

namespace Sys2Proof

/-- A command of the CRCE. The operand of SELECT is a selector code and that of UPDB, UPDR and UPDN a data byte, both the
whole 8 bits of ARG (30_encoding.md R71), so every term is a command some word encodes. -/
inductive Instr where
  /-- NOP, OP = 0x0 (43_control.md R160). -/
  | nop
  /-- SELECT k, OP = 0x1 (40_configuration.md R101). -/
  | select (k : Byte)
  /-- CONFIG, OP = 0x2 (40_configuration.md R104). -/
  | config
  /-- INIT, OP = 0x3 (41_bitwise.md R124). -/
  | init
  /-- UPDB b, OP = 0x4 (41_bitwise.md R125). -/
  | updb (b : Byte)
  /-- UPDR b, OP = 0x5 (41_bitwise.md R126). -/
  | updr (b : Byte)
  /-- UPDN b, OP = 0x6 (42_nibble.md R143). -/
  | updn (b : Byte)
  /-- FINAL, OP = 0x7 (41_bitwise.md R127). -/
  | final
  /-- CLRERR, OP = 0x8 (43_control.md R161). -/
  | clrerr
  deriving DecidableEq, Repr

end Sys2Proof
end

