-- ==== Sys2Proof/WellFormed.lean ====
section
/-! DEFINITION. Well-formed command words, as the opcode map says it (30_encoding.md R72): a word is an instruction when
`c & mask = match` for that instruction's row. The decoder (Decode.lean) is written from the other rule, R73, and does not
use this file. An `Instr` needs no check of its own: its operands are 8-bit by type, as ARG is. -/

namespace Sys2Proof

/-- One row of the opcode map: the two 32-bit numbers a word is compared with. -/
structure OpcodeRow where
  matchBits : Word
  maskBits : Word
  deriving DecidableEq, Repr

/-- The word `c` is this row's instruction (30_encoding.md R72). -/
def OpcodeRow.covers (r : OpcodeRow) (c : Word) : Bool := (c &&& r.maskBits) = r.matchBits

/-- The row of the opcode map for each instruction, from the table of 30_encoding.md R72. -/
def Instr.row : Instr → OpcodeRow
  | .nop      => { matchBits := 0x00000000, maskBits := 0xFFFFFFFF }
  | .select _ => { matchBits := 0x00000001, maskBits := 0xFFFF00FF }
  | .config   => { matchBits := 0x00000002, maskBits := 0xFFFFFFFF }
  | .init     => { matchBits := 0x00000003, maskBits := 0xFFFFFFFF }
  | .updb _   => { matchBits := 0x00000004, maskBits := 0xFFFF00FF }
  | .updr _   => { matchBits := 0x00000005, maskBits := 0xFFFF00FF }
  | .updn _   => { matchBits := 0x00000006, maskBits := 0xFFFF00FF }
  | .final    => { matchBits := 0x00000007, maskBits := 0xFFFFFFFF }
  | .clrerr   => { matchBits := 0x00000008, maskBits := 0xFFFFFFFF }

/-- The nine rows of the opcode map, in opcode order. -/
def opcodeMap : List OpcodeRow :=
  [Instr.row .nop, Instr.row (.select 0), Instr.row .config, Instr.row .init, Instr.row (.updb 0), Instr.row (.updr 0),
   Instr.row (.updn 0), Instr.row .final, Instr.row .clrerr]

/-- A command word is well formed when some row of the opcode map covers it. -/
def wordWellFormed (c : Word) : Bool := opcodeMap.any fun r => r.covers c

end Sys2Proof
end

