-- ==== Sys2Proof/Decode.lean ====
section
/-! DEFINITION. Decoding of a command word (30_encoding.md R70, R71, R73) and, after it, the encoder (R72, R76). -/

namespace Sys2Proof

/-! ## Fields (30_encoding.md R70) -/

/-- OP, bits [3:0]. -/
def opField (c : Word) : BitVec 4 := c.extractLsb' 0 4

/-- RES0, bits [7:4]. -/
def res0Field (c : Word) : BitVec 4 := c.extractLsb' 4 4

/-- ARG, bits [15:8]. -/
def argField (c : Word) : Byte := c.extractLsb' 8 8

/-- RES1, bits [31:16]. -/
def res1Field (c : Word) : BitVec 16 := c.extractLsb' 16 16

/-! ## Decoding -/

/-- Why a word is no command. Each is an IllegalCommand, recorded alike (30_encoding.md R74); the name only says which
line of R73 rejected the word. -/
inductive IllegalWord where
  /-- OP is 0x9 to 0xF. -/
  | reservedOpcode
  /-- RES0 or RES1 is not zero. -/
  | reservedField
  /-- ARG is not zero on an opcode that takes no argument. -/
  | argNotZero
  deriving DecidableEq, Repr

/-- NOP, CONFIG, INIT, FINAL and CLRERR take no argument (30_encoding.md R73). -/
def takesNoArg (op : BitVec 4) : Bool := op = 0x0 || op = 0x2 || op = 0x3 || op = 0x7 || op = 0x8

/-- The instruction of a word whose fields are in order (30_encoding.md R72); none for a reserved opcode. -/
def dispatchOp (op : BitVec 4) (arg : Byte) : Option Instr :=
  match op.toNat with
  | 0x0 => some .nop
  | 0x1 => some (.select arg)
  | 0x2 => some .config
  | 0x3 => some .init
  | 0x4 => some (.updb arg)
  | 0x5 => some (.updr arg)
  | 0x6 => some (.updn arg)
  | 0x7 => some .final
  | 0x8 => some .clrerr
  | _ => none

/-- Decoding of a command word: every word gives one instruction or is rejected by name (30_encoding.md R73). -/
def decode (c : Word) : Except IllegalWord Instr :=
  match dispatchOp (opField c) (argField c) with
  | none => .error .reservedOpcode
  | some i =>
    if res0Field c ≠ 0 ∨ res1Field c ≠ 0 then .error .reservedField
    else if takesNoArg (opField c) = true ∧ argField c ≠ 0 then .error .argNotZero
    else .ok i

/-! ## Encoding -/

/-- The opcode of an instruction (30_encoding.md R72). -/
def Instr.opcode : Instr → BitVec 4
  | .nop => 0x0
  | .select _ => 0x1
  | .config => 0x2
  | .init => 0x3
  | .updb _ => 0x4
  | .updr _ => 0x5
  | .updn _ => 0x6
  | .final => 0x7
  | .clrerr => 0x8

/-- The ARG field of an instruction: its operand, and 0 where it takes none (30_encoding.md R70). -/
def Instr.arg : Instr → Byte
  | .nop => 0
  | .select k => k
  | .config => 0
  | .init => 0
  | .updb b => b
  | .updr b => b
  | .updn b => b
  | .final => 0
  | .clrerr => 0

/-- The word of an instruction: `OP | (ARG << 8)` (30_encoding.md R76). -/
def encode (i : Instr) : Word := i.opcode.setWidth 32 ||| (i.arg.setWidth 32 <<< 8)

/-- What the decoder reads from the bits `w` of a table row of `nbits` bits, bits above `nbits` being 0. Every row is one
32-bit word (30_encoding.md R70), bit `i` of the number being bit `i` of the word (20_memory.md R59); a number that does
not fit in one word is no command. -/
def decodeTableWord (nbits w : Nat) : Option Instr :=
  if w % 2 ^ nbits < 2 ^ 32 then (decode (BitVec.ofNat 32 (w % 2 ^ nbits))).toOption else none

end Sys2Proof
end

