-- ==== Sys2Proof/Config.lean ====
section
/-! DEFINITION. What the spec leaves OPEN for an implementation: the base address of the register window. -/

namespace Sys2Proof

/-- `CRC_BASE`, the host address of the register window (00_scope.md R6, 20_memory.md R51): OPEN, so it has no body and
no proof can see its value. The block's own rules use offsets only (log 5). -/
opaque Config.crcBase : Nat

end Sys2Proof
end

