-- ==== Sys2Proof/Machine/Catalog.lean ====
section
/-! DEFINITION. The AlgorithmSpec tuple (00_scope.md R10, R11) and the contents of the catalog ROM (40_configuration.md
R100). -/

namespace Sys2Proof.Machine

/-- A spec: the tuple `(width, reflected, poly, init, xorout)` of one CRC variant (00_scope.md R10), with the field widths
of 10_state.md R24 and R27. -/
structure Spec where
  width : Byte
  reflected : Bool
  poly : Word
  init : Word
  xorout : Word
  deriving DecidableEq, Repr

/-- The catalog ROM, codes 0 to 7 (40_configuration.md R100). Row 6 has the init of conflict C1 (log 10). Row 2,
CRC8-J1850, is the spec's row from general knowledge: PRESUMED (log 9). -/
def catalogRom : Vector Spec 8 := #v[
  { width := 8,  reflected := true,  poly := 0x8C,       init := 0x00,       xorout := 0x00 },       -- CRC8-1WIRE
  { width := 8,  reflected := false, poly := 0x2F,       init := 0xFF,       xorout := 0xFF },       -- CRC8-AUTOSAR
  { width := 8,  reflected := false, poly := 0x1D,       init := 0xFF,       xorout := 0xFF },       -- CRC8-J1850
  { width := 16, reflected := true,  poly := 0xA001,     init := 0xFFFF,     xorout := 0x0000 },     -- CRC16-ANSI
  { width := 16, reflected := false, poly := 0x1021,     init := 0xFFFF,     xorout := 0x0000 },     -- CRC16-CCITT
  { width := 16, reflected := false, poly := 0x1021,     init := 0x0000,     xorout := 0x0000 },     -- CRC16-XMODEM
  { width := 32, reflected := true,  poly := 0xEDB88320, init := 0xFFFFFFFF, xorout := 0xFFFFFFFF }, -- CRC32
  { width := 32, reflected := false, poly := 0x04C11DB7, init := 0x00000000, xorout := 0xFFFFFFFF }] -- CRC32-POSIX

/-- The catalog's names in code order (40_configuration.md R100). -/
def catalogNames : List String :=
  ["CRC8-1WIRE", "CRC8-AUTOSAR", "CRC8-J1850", "CRC16-ANSI", "CRC16-CCITT", "CRC16-XMODEM", "CRC32", "CRC32-POSIX"]

end Sys2Proof.Machine
end

