-- ==== Sys2Proof/Machine/State.lean ====
section
/-! DEFINITION. The state of the CRCE (10_state.md) and of the inputs that wait to be served, and the state after reset
(10_state.md R36). -/

namespace Sys2Proof.Machine

/-- The active spec `ACT`: the five fields of the AlgorithmSpec, `cfgv` and `sel` (10_state.md R24). -/
structure ActiveSpec extends Spec where
  cfgv : Bool
  sel : Byte
  deriving DecidableEq, Repr

/-- What the outside world does to the block: a host access of `bytes` bytes at byte offset `off` of the window
(20_memory.md R50, R53), or the platform's reset input (70_reset_and_hazards.md R230). The value of a write is carried as 32
bits whatever its width, since a write of another width is not admitted. -/
inductive Input where
  | read (off bytes : Nat)
  | write (off bytes : Nat) (v : Word)
  | reset
  deriving DecidableEq, Repr

/-- What the input served last gave back to the outside: nothing, the acknowledge of a write (20_memory.md R56), or the
value of a read (R54). The model's own field (log 2). -/
inductive Reply where
  | silent
  | ack
  | data (v : Word)
  deriving DecidableEq, Repr

/-- The state: the registers of 10_state.md, the catalog ROM, and the model's own `pending` and `reply`. STATUS is no field
of its own: CFGV and SEL are copies of `act.cfgv` and `act.sel` (10_state.md R29). The CMD port holds no value (R34). -/
structure State where
  /-- `CRC`, the engine state (10_state.md R22). -/
  crc : Word
  /-- `RESULT`, the last finalized value (10_state.md R23). -/
  result : Word
  /-- `ACT`, the active spec (10_state.md R24). -/
  act : ActiveSpec
  /-- `STG`, the staging registers (10_state.md R27, R28). -/
  stg : Spec
  /-- STATUS.ERR, the code of the first error (10_state.md R29, 60_exceptions.md R200). -/
  err : BitVec 4
  /-- STATUS.EOVF, a later error was lost (10_state.md R29). -/
  eovf : Bool
  /-- `ERRCMD`, the word of the first failing command (10_state.md R30). -/
  errcmd : Word
  /-- `TABLE[0..15]`, the nibble lookup table (10_state.md R31). -/
  table : Vector Word 16
  /-- `CATALOG[0..7]`, the catalog ROM (10_state.md R33; log 7). -/
  catalog : Vector Spec 8
  /-- The inputs not served yet, in the order they reach the block, oldest first (20_memory.md R62; log 1). -/
  pending : List Input
  /-- What the input served last gave back (log 2). -/
  reply : Reply
  deriving DecidableEq, Repr

/-- Reasons for a fault: none. The block has no trap and an error stops nothing (60_exceptions.md R204, R205), so no step
of the model raises a fault, and this closed inductive has no constructor. -/
inductive Fault
  deriving DecidableEq, Repr

/-- Reasons for a refusal. -/
inductive Refusal where
  /-- Raised by an arm of `exec` for an instruction without a meaning; no arm raises it now. Safe: nothing can be proved
  about a run that ends here. -/
  | notModelled (mnemonic : String)
  /-- Raised when the input to be served is a host access of a width other than 32 bits, at an offset that is no multiple of
  4, or at offset 0x80 or above: the spec gives it no step (20_memory.md R53, IMP6). Safe: the run ends (log 4). -/
  | accessNotAdmitted
  deriving DecidableEq, Repr

/-- `ACT` after reset (10_state.md R24, R36). -/
def ActiveSpec.reset : ActiveSpec :=
  { width := 0, reflected := false, poly := 0, init := 0, xorout := 0, cfgv := false, sel := 0xFF }

/-- The state after reset (10_state.md R36): every register 0 but SEL = 0xFF, the catalog as manufactured, and no input
waiting (the model's own fields: log 1, log 2). -/
def State.reset : State :=
  { crc := 0
    result := 0
    act := ActiveSpec.reset
    stg := { width := 0, reflected := false, poly := 0, init := 0, xorout := 0 }
    err := 0
    eovf := false
    errcmd := 0
    table := Vector.replicate 16 0
    catalog := catalogRom
    pending := []
    reply := .silent }

end Sys2Proof.Machine
end

