-- ==== Sys2Proof/Machine/Flags.lean ====
section
/-! DEFINITION. The block's only flags: STATUS and the error codes (10_state.md R29, 60_exceptions.md R200). No command sets
a flag as a side effect of computing. -/

namespace Sys2Proof.Machine

/-- The errors a command can raise (60_exceptions.md R200). -/
inductive ErrorKind where
  | invalidSpec
  | unknownAlgorithm
  | notConfigured
  | illegalCommand
  deriving DecidableEq, Repr

/-- The code STATUS.ERR records for an error (60_exceptions.md R200); 0 is none, 5 to 15 are never written. -/
def ErrorKind.code : ErrorKind → BitVec 4
  | .invalidSpec => 1
  | .unknownAlgorithm => 2
  | .notConfigured => 3
  | .illegalCommand => 4

/-- The value of STATUS: SEL [15:8], ERR [7:4], EOVF [1], CFGV [0], and 0 in [31:16] and [3:2] (20_memory.md R54, 10_state.md
R29). -/
def statusWord (s : State) : Word :=
  0#16 ++ s.act.sel ++ s.err ++ 0#2 ++ BitVec.ofBool s.eovf ++ BitVec.ofBool s.act.cfgv

end Sys2Proof.Machine
end

