-- ==== Sys2Proof/Machine/Operands.lean ====
section
/-! DEFINITION. Operand forms and bit-field helpers of the update rules: `mask`, the places a data byte takes in the
register, and the nibble that indexes the table (00_scope.md R7, R8; 41_bitwise.md R122; 42_nibble.md R140, R142). The
fields of a command word are in Decode.lean. -/

namespace Sys2Proof.Machine

/-- `mask(w) = 2^w - 1` (00_scope.md R8). -/
def mask (w : Nat) : Word := BitVec.ofNat 32 (2 ^ w - 1)

/-- The width of a spec as a number of bits. -/
def Spec.bits (sp : Spec) : Nat := sp.width.toNat

/-- `zext(b)`: a data byte in bits [7:0] (41_bitwise.md R122, reflected). -/
def byteLow (b : Byte) : Word := b.setWidth 32

/-- `zext(b) << (w - 8)`: a data byte in bits [w-1:w-8] (41_bitwise.md R122, non-reflected). -/
def byteHigh (b : Byte) (w : Nat) : Word := byteLow b <<< (w - 8)

/-- Where the data byte enters the register: low for a reflected spec, high otherwise (41_bitwise.md R122, 20_memory.md
R60). -/
def Spec.placeByte (sp : Spec) (b : Byte) : Word := if sp.reflected then byteLow b else byteHigh b sp.bits

/-- Where the table generator preloads the index `i`: the low nibble for a reflected spec, bits [w-1:w-4] otherwise
(42_nibble.md R140). -/
def Spec.placeNibble (sp : Spec) (i : Nat) : Word :=
  if sp.reflected then BitVec.ofNat 32 i else BitVec.ofNat 32 i <<< (sp.bits - 4)

/-- `s & 0xF` (42_nibble.md R142, reflected). -/
def lowNibble (s : Word) : Fin 16 := (s.extractLsb' 0 4).toFin

/-- `s[w-1:w-4]` (42_nibble.md R142, non-reflected). -/
def topNibble (s : Word) (w : Nat) : Fin 16 := (s.extractLsb' (w - 4) 4).toFin

/-- `zext_32({reflected, width})`, the view of ACT_CTRL and STG_CTRL (20_memory.md R54; bits [31:9] read as 0, 10_state.md
R24, R28). -/
def Spec.ctrlWord (sp : Spec) : Word := (BitVec.ofBool sp.reflected ++ sp.width).setWidth 32

end Sys2Proof.Machine
end

