-- ==== Sys2Proof/Machine/Ops.lean ====
section
/-! DEFINITION. The shared operations on the block's state: recording an error and clearing the record (60_exceptions.md
R203, R206), the test for an active spec (R201), the reset of the block (70_reset_and_hazards.md R230), and the reads and writes of the
register window but for the CMD port (20_memory.md R51 to R58). A command's ending is always a next state: the block has no
trap (60_exceptions.md R204). -/

namespace Sys2Proof.Machine

/-! ## Errors -/

/-- Command `c` raises error `e`: the first error is recorded with its word, a later one only sets EOVF, and nothing else is
written (60_exceptions.md R203). This is the block's whole "trap entry". -/
def raiseError (e : ErrorKind) (c : Word) (s : State) : State :=
  if s.err = 0 then { s with err := e.code, errcmd := c } else { s with eovf := true }

/-- The record of errors is cleared: the block's "return" (60_exceptions.md R206, 43_control.md R161). -/
def clearErrors (s : State) : State := { s with err := 0, eovf := false, errcmd := 0 }

/-- The outcome of a command `c` that needs an active spec and would leave `t`: without one it raises NotConfigured and has
no other effect (60_exceptions.md R201). -/
def whenConfigured (c : Word) (s t : State) : Host.Outcome State Fault Refusal :=
  .next (if s.act.cfgv then t else raiseError .notConfigured c s)

/-! ## Reset -/

/-- Reset of the block: every register takes its reset value and the catalog ROM is unchanged (70_reset_and_hazards.md R230). The inputs
that wait are the outside world's, and stay (log 6). -/
def resetBlock (s : State) : State := { State.reset with catalog := s.catalog, pending := s.pending }

/-! ## The register window -/

/-- An access is admitted only as a 32-bit word at an offset that is a multiple of 4 and below 0x80 (20_memory.md R53). -/
def admitted (off bytes : Nat) : Bool := bytes = 4 && off % 4 = 0 && off < 0x80

/-- The offset of a host address in a window at `base`, if the address is in it (20_memory.md R51; log 5). -/
def windowOffset (base addr : Nat) : Option Nat :=
  if base ≤ addr ∧ addr < base + 0x80 then some (addr - base) else none

/-- A host's 32-bit read of its address `addr`, for a window at `base`; none for an address the platform sends elsewhere. -/
def readAt (base addr : Nat) : Option Input := (windowOffset base addr).map fun off => .read off 4

/-- A host's 32-bit write to its address `addr`, for a window at `base`; none for an address the platform sends elsewhere. -/
def writeAt (base addr : Nat) (v : Word) : Option Input := (windowOffset base addr).map fun off => .write off 4 v

/-- The host's read of its address `addr`, the window being at `CRC_BASE` (20_memory.md R51). -/
def hostRead (addr : Nat) : Option Input := readAt Config.crcBase addr

/-- The host's write to its address `addr`, the window being at `CRC_BASE` (20_memory.md R51). -/
def hostWrite (addr : Nat) (v : Word) : Option Input := writeAt Config.crcBase addr v

/-- `TABLE[i]` (10_state.md R31). -/
def tableEntry (s : State) (i : Nat) : Word := s.table.get (Fin.ofNat 16 i)

/-- `MemRead(off, 4)` for an admitted `off` (20_memory.md R54). -/
def memRead (off : Nat) (s : State) : Word :=
  match off with
  | 0x00 => 0
  | 0x04 => statusWord s
  | 0x08 => s.crc
  | 0x0C => s.result
  | 0x10 => s.stg.poly
  | 0x14 => s.stg.init
  | 0x18 => s.stg.xorout
  | 0x1C => s.stg.ctrlWord
  | 0x20 => s.act.poly
  | 0x24 => s.act.init
  | 0x28 => s.act.xorout
  | 0x2C => s.act.ctrlWord
  | 0x30 => s.errcmd
  | off => if 0x40 ≤ off then tableEntry s ((off - 0x40) / 4) else 0

/-- A host write of `v` to CRC: masked to the active width, and without effect while no spec is active (20_memory.md R58). -/
def writeCrc (v : Word) (s : State) : State :=
  if s.act.cfgv then { s with crc := v &&& mask s.act.bits } else s

/-- A host write of `v` to STG_CTRL: bits [31:9] are ignored (20_memory.md R55, 10_state.md R28). -/
def writeStgCtrl (v : Word) (s : State) : State :=
  { s with stg := { s.stg with width := v.extractLsb' 0 8, reflected := v.getLsbD 8 } }

/-- `MemWrite(off, 4, v)` for an admitted `off` other than CMD: a read-only or reserved register ignores the write without an
error (20_memory.md R55). -/
def writeRegister (off : Nat) (v : Word) (s : State) : State :=
  match off with
  | 0x08 => writeCrc v s
  | 0x10 => { s with stg := { s.stg with poly := v } }
  | 0x14 => { s with stg := { s.stg with init := v } }
  | 0x18 => { s with stg := { s.stg with xorout := v } }
  | 0x1C => writeStgCtrl v s
  | _ => s

end Sys2Proof.Machine
end

