-- ==== Sys2Proof/Machine/Bitwise.lean ====
section
/-! DEFINITION. The bit-serial family: the single-bit steps and the byte update (41_bitwise.md R120 to R122), and the
commands INIT, UPDB, UPDR and FINAL (R124 to R127). Registers are 32 bits and hold `w`-bit values, so a left shift loses
only bits that `mask(w)` would cut (00_scope.md R8; log 12). -/

namespace Sys2Proof.Machine

/-! ## Step functions and the byte update -/

/-- The reflected single-bit step (41_bitwise.md R120). -/
def stepR (s p : Word) (_w : Nat) : Word := if s.getLsbD 0 then (s >>> 1) ^^^ p else s >>> 1

/-- The non-reflected single-bit step (41_bitwise.md R121). -/
def stepN (s p : Word) (w : Nat) : Word :=
  if s.getLsbD (w - 1) then ((s <<< 1) &&& mask w) ^^^ p else (s <<< 1) &&& mask w

/-- The single-bit step of a spec, by its `reflected`. -/
def Spec.bitStep (sp : Spec) (s : Word) : Word :=
  if sp.reflected then stepR s sp.poly sp.bits else stepN s sp.poly sp.bits

/-- `n` single-bit steps in a row. -/
def Spec.bitSteps (sp : Spec) : Nat → Word → Word
  | 0, s => s
  | n + 1, s => sp.bitSteps n (sp.bitStep s)

/-- `bitUpdate(spec, s, b)`: the byte enters the register, then eight single-bit steps (41_bitwise.md R122). -/
def bitUpdate (sp : Spec) (s : Word) (b : Byte) : Word := sp.bitSteps 8 (s ^^^ sp.placeByte b)

/-! ## Commands -/

/-- INIT: `CRC <- ACT.init` (41_bitwise.md R124). -/
def execInit (s : State) : Host.Outcome State Fault Refusal :=
  whenConfigured (encode .init) s { s with crc := s.act.init }

/-- UPDB b: the bit-serial engine folds one byte into CRC (41_bitwise.md R125). -/
def execUpdb (b : Byte) (s : State) : Host.Outcome State Fault Refusal :=
  whenConfigured (encode (.updb b)) s { s with crc := bitUpdate s.act.toSpec s.crc b }

/-- UPDR b: the reference engine computes the same function (41_bitwise.md R123, R126; log 11). -/
def execUpdr (b : Byte) (s : State) : Host.Outcome State Fault Refusal :=
  whenConfigured (encode (.updr b)) s { s with crc := bitUpdate s.act.toSpec s.crc b }

/-- FINAL: `RESULT <- CRC ^ ACT.xorout` (41_bitwise.md R127). -/
def execFinal (s : State) : Host.Outcome State Fault Refusal :=
  whenConfigured (encode .final) s { s with result := s.crc ^^^ s.act.xorout }

end Sys2Proof.Machine
end

