-- ==== Sys2Proof/Machine/Nibble.lean ====
section
/-! DEFINITION. The nibble family: the table generator (42_nibble.md R140), the table-driven byte update (R142) and the
command UPDN (R143). -/

namespace Sys2Proof.Machine

/-- `tgen(spec)[i]`: four single-bit steps of `i` in its nibble (42_nibble.md R140). -/
def tgenEntry (sp : Spec) (i : Nat) : Word := sp.bitSteps 4 (sp.placeNibble i)

/-- `tgen(spec)`, all 16 entries (42_nibble.md R140). -/
def tgen (sp : Spec) : Vector Word 16 := Vector.ofFn fun i => tgenEntry sp i.val

/-- One table step: the index is taken from `s` before the shift (42_nibble.md R142). -/
def nibStep (sp : Spec) (t : Vector Word 16) (s : Word) : Word :=
  if sp.reflected then (s >>> 4) ^^^ t.get (lowNibble s)
  else ((s <<< 4) &&& mask sp.bits) ^^^ t.get (topNibble s sp.bits)

/-- `nibUpdate(spec, T, s, b)`: the byte enters the register, then two table steps (42_nibble.md R142). -/
def nibUpdate (sp : Spec) (t : Vector Word 16) (s : Word) (b : Byte) : Word :=
  nibStep sp t (nibStep sp t (s ^^^ sp.placeByte b))

/-- UPDN b: the table-driven engine folds one byte into CRC (42_nibble.md R143). -/
def execUpdn (b : Byte) (s : State) : Host.Outcome State Fault Refusal :=
  whenConfigured (encode (.updn b)) s { s with crc := nibUpdate s.act.toSpec s.table s.crc b }

end Sys2Proof.Machine
end

