-- ==== Sys2Proof/Machine/Configuration.lean ====
section
/-! DEFINITION. The configuration family: the parameter check (40_configuration.md R103) and the commands SELECT (R101) and
CONFIG (R104). Both end by running the table generator and loading CRC (42_nibble.md R141). -/

namespace Sys2Proof.Machine

/-- `v < 2^w` for a 32-bit value. -/
def fits (v : Word) (w : Nat) : Bool := v.toNat < 2 ^ w

/-- `valid(w, p, i, x)`: a supported width, and the three values fit in it (40_configuration.md R103). -/
def Spec.valid (sp : Spec) : Bool :=
  (sp.bits = 8 || sp.bits = 16 || sp.bits = 32) && fits sp.poly sp.bits && fits sp.init sp.bits && fits sp.xorout sp.bits

/-- The whole of `ACT` for a spec loaded with selector code `sel` (40_configuration.md R101, R104). -/
def Spec.activate (sp : Spec) (sel : Byte) : ActiveSpec := { toSpec := sp, cfgv := true, sel := sel }

/-- A successful SELECT or CONFIG: `ACT`, `TABLE` and `CRC` in one step (40_configuration.md R101, R104; 42_nibble.md
R141). -/
def loadSpec (sp : Spec) (sel : Byte) (s : State) : State :=
  { s with act := sp.activate sel, table := tgen sp, crc := sp.init }

/-- SELECT k: loads catalog entry `k`, or raises UnknownAlgorithm for a code of 8 or above (40_configuration.md R101). -/
def execSelect (k : Byte) (s : State) : Host.Outcome State Fault Refusal :=
  .next (if h : k.toNat < 8 then loadSpec s.catalog[k.toNat] k s
    else raiseError .unknownAlgorithm (encode (.select k)) s)

/-- CONFIG: loads the spec in the staging registers, or raises InvalidSpec if it is not valid (40_configuration.md R104). -/
def execConfig (s : State) : Host.Outcome State Fault Refusal :=
  .next (if s.stg.valid then loadSpec s.stg 0xFF s else raiseError .invalidSpec (encode .config) s)

end Sys2Proof.Machine
end

