-- ==== Sys2Proof/Machine/Control.lean ====
section
/-! DEFINITION. The control family: NOP and CLRERR (43_control.md R160, R161). -/

namespace Sys2Proof.Machine

/-- NOP: no state is written (43_control.md R160). -/
def execNop (s : State) : Host.Outcome State Fault Refusal := .next s

/-- CLRERR: clears ERR, EOVF and ERRCMD (43_control.md R161). -/
def execClrerr (s : State) : Host.Outcome State Fault Refusal := .next (clearErrors s)

end Sys2Proof.Machine
end

