-- ==== Sys2Proof/Machine/Dispatch.lean ====
section
/-! DEFINITION. Dispatch of a decoded command to its meaning (30_encoding.md R72, R73). -/

namespace Sys2Proof.Machine

def exec (i : Instr) (s : State) : Host.Outcome State Fault Refusal :=
  match i with
  | .nop => Sys2Proof.Machine.execNop s
  | .select k => Sys2Proof.Machine.execSelect k s
  | .config => Sys2Proof.Machine.execConfig s
  | .init => Sys2Proof.Machine.execInit s
  | .updb b => Sys2Proof.Machine.execUpdb b s
  | .updr b => Sys2Proof.Machine.execUpdr b s
  | .updn b => Sys2Proof.Machine.execUpdn b s
  | .final => Sys2Proof.Machine.execFinal s
  | .clrerr => Sys2Proof.Machine.execClrerr s

end Sys2Proof.Machine
end

