-- ==== Sys2Proof/Machine/HostAccess.lean ====
section
/-! DEFINITION. Serving one input of the outside world: a read, a write, a command written to CMD, or reset (20_memory.md R50
to R56, 70_reset_and_hazards.md R230, R236). Each is one atomic step, in the order the inputs arrive (20_memory.md R62). -/

namespace Sys2Proof.Machine

/-- A write of `c` to CMD executes `c` as one command; a word that does not decode raises IllegalCommand and has no other
effect (20_memory.md R56, 30_encoding.md R73, R74). -/
def command (c : Word) (s : State) : Host.Outcome State Fault Refusal :=
  match decode c with
  | .ok i => exec i s
  | .error _ => .next (raiseError .illegalCommand c s)

/-- `MemWrite(off, 4, v)` for an admitted `off` (20_memory.md R55). -/
def memWrite (off : Nat) (v : Word) (s : State) : Host.Outcome State Fault Refusal :=
  if off = 0x00 then command v s else .next (writeRegister off v s)

/-- What the outside sees of a served input, put into the state it leaves (log 2). -/
def withReply (r : Reply) : Host.Outcome State Fault Refusal → Host.Outcome State Fault Refusal
  | .next s => .next { s with reply := r }
  | .fault f => .fault f
  | .refused f => .refused f

/-- Serves one input. An access that is not admitted has no step: it is refused (20_memory.md R53; log 4). -/
def serve (x : Input) (s : State) : Host.Outcome State Fault Refusal :=
  match x with
  | .read off bytes =>
    if admitted off bytes then .next { s with reply := .data (memRead off s) } else .refused .accessNotAdmitted
  | .write off bytes v => if admitted off bytes then withReply .ack (memWrite off v s) else .refused .accessNotAdmitted
  | .reset => .next (resetBlock s)

/-- Takes the oldest waiting input and serves it; with none waiting the block does nothing (10_state.md R20,
70_reset_and_hazards.md R231; log 3). -/
def serveNext (s : State) : Host.Outcome State Fault Refusal :=
  match s.pending with
  | [] => .next s
  | x :: rest => serve x { s with pending := rest }

/-- The host's write of a command word to CMD. -/
def cmdWrite (c : Word) : Input := .write 0x00 4 c

/-- The outside world adds inputs behind those that wait. -/
def State.issue (xs : List Input) (s : State) : State := { s with pending := s.pending ++ xs }

end Sys2Proof.Machine
end

