-- ==== Sys2Proof/Machine/Step.lean ====
section
/-! DEFINITION. One step of the machine: one host access, one command, or one reset (70_reset_and_hazards.md R236). -/

namespace Sys2Proof.Machine

/-- One step: the oldest waiting input is served. -/
def step (s : State) : Host.Outcome State Fault Refusal := serveNext s

/-- `s` with the command word `w` (of `nbits` bits) as the next thing the host writes to CMD, before every input that already
waits. The block fetches nothing (10_state.md R21): a program is the host's writes, and this stands for one (log 13). -/
def State.withFetchWord (s : State) (nbits w : Nat) : State :=
  { s with pending := cmdWrite (BitVec.ofNat 32 (w % 2 ^ nbits)) :: s.pending }

end Sys2Proof.Machine
end

