-- ==== Sys2Proof/Machine/Assembler.lean ====
section
/-! DEFINITION. Host listings: the pseudo-instructions and their expansions (30_encoding.md R77) and the listing notation
(R76). It is notation for the inputs a host sends and has no effect on the machine (92_eei_decisions.md D26); what R76
leaves open of it is in log 14. -/

namespace Sys2Proof.Machine

/-! ## Pseudo-instructions (30_encoding.md R77) -/

/-- The three engines `e`, B, R and N, of UPDB, UPDR and UPDN (30_encoding.md R77). -/
inductive Engine where
  | bitSerial
  | reference
  | table
  deriving DecidableEq, Repr

/-- The update command of an engine for one byte. -/
def Engine.update (e : Engine) (b : Byte) : Instr :=
  match e with
  | .bitSerial => .updb b
  | .reference => .updr b
  | .table => .updn b

/-- The host's write of an instruction's word to CMD. -/
def issueCommand (i : Instr) : Input := cmdWrite (encode i)

/-- `UPDMANY.e b0, ..., bn-1`. -/
def updMany (e : Engine) (bs : List Byte) : List Input := bs.map fun b => issueCommand (e.update b)

/-- `COMPUTE.e b0, ..., bn-1`. -/
def compute (e : Engine) (bs : List Byte) : List Input :=
  issueCommand .init :: updMany e bs ++ [issueCommand .final]

/-- `LOADSPEC w, r, p, i, x`. -/
def loadSpecListing (sp : Spec) : List Input :=
  [.write 0x10 4 sp.poly, .write 0x14 4 sp.init, .write 0x18 4 sp.xorout, .write 0x1C 4 sp.ctrlWord, issueCommand .config]

/-- `SAVE`: the host reads CRC. -/
def save : List Input := [.read 0x08 4]

/-- `RESTORE v`: the host writes CRC. -/
def restore (v : Word) : List Input := [.write 0x08 4 v]

/-! ## The text of a listing (30_encoding.md R76) -/

/-- Splits the characters of a line at blanks, tabs and commas; `word` holds the token read so far, reversed. -/
def splitTokens (word : List Char) : List Char → List (List Char)
  | [] => if word = [] then [] else [word.reverse]
  | c :: rest =>
    if c = ' ' || c = '\t' || c = ',' then
      if word = [] then splitTokens [] rest else word.reverse :: splitTokens [] rest
    else splitTokens (c :: word) rest

/-- The tokens of a line; a `;` starts a comment. -/
def lineTokens (line : String) : List (List Char) := splitTokens [] (line.toList.takeWhile (· ≠ ';'))

/-- The digits in the order of their values; a letter stands for both its cases (log 14). -/
def digits : List Char := "0123456789abcdef".toList

/-- The value of a character as a digit of a base up to 16: its place among the base's digits. -/
def digitValue (base : Nat) (c : Char) : Option Nat := (digits.take base).findIdx? (· = c.toLower)

/-- The number a row of digits writes in a base, most significant first; none if a character is no digit of the base. -/
def digitsValue (base : Nat) (t : List Char) : Option Nat :=
  t.foldlM (fun n c => (digitValue base c).map (n * base + ·)) 0

/-- A literal: `0x...` or decimal (30_encoding.md R76). -/
def literal (t : List Char) : Option Nat :=
  match t with
  | [] => none
  | '0' :: 'x' :: c :: rest => digitsValue 16 (c :: rest)
  | c :: rest => digitsValue 10 (c :: rest)

/-- A literal that fits in `n` bits. -/
def literalOf (n : Nat) (t : List Char) : Option (BitVec n) :=
  (literal t).bind fun v => if v < 2 ^ n then some (BitVec.ofNat n v) else none

/-- The position of a catalog name among `names`, counted from `k`. -/
def nameCode (t : List Char) (k : Nat) : List String → Option Nat
  | [] => none
  | n :: rest => if n.toList = t then some k else nameCode t (k + 1) rest

/-- The operand of SELECT: a catalog name or a code literal. A name that is not in the catalog has no code and is an error
of the listing (40_configuration.md R102). -/
def selectorOf (t : List Char) : Option Byte :=
  match nameCode t 0 catalogNames with
  | some k => some (BitVec.ofNat 8 k)
  | none => literalOf 8 t

/-- The named registers of the window and their offsets (20_memory.md R52), TABLE[i] apart. -/
def registerNames : List (String × Nat) :=
  [("CMD", 0x00), ("STATUS", 0x04), ("CRC", 0x08), ("RESULT", 0x0C), ("STG_POLY", 0x10), ("STG_INIT", 0x14),
   ("STG_XOROUT", 0x18), ("STG_CTRL", 0x1C), ("ACT_POLY", 0x20), ("ACT_INIT", 0x24), ("ACT_XOROUT", 0x28),
   ("ACT_CTRL", 0x2C), ("ERRCMD", 0x30)]

/-- The offset of a register among `names`. -/
def offsetAmong (t : List Char) : List (String × Nat) → Option Nat
  | [] => none
  | (n, off) :: rest => if n.toList = t then some off else offsetAmong t rest

/-- The offset of a named register, `TABLE[i]` with a decimal or `0x` index 0 to 15 included (20_memory.md R52). -/
def registerOffset (t : List Char) : Option Nat :=
  match t with
  | 'T' :: 'A' :: 'B' :: 'L' :: 'E' :: '[' :: rest =>
    if rest.getLast? = some ']' then (literalOf 4 rest.dropLast).map fun i => 0x40 + 4 * i.toNat else none
  | t => offsetAmong t registerNames

/-- The engine named after the dot of `UPDMANY.e` and `COMPUTE.e`. -/
def engineOf (t : List Char) : Option Engine :=
  match t with
  | ['B'] => some .bitSerial
  | ['R'] => some .reference
  | ['N'] => some .table
  | _ => none

/-- The bytes of a pseudo-instruction's operands. -/
def byteOperands (ts : List (List Char)) : Option (List Byte) := ts.mapM (literalOf 8)

/-- The command of a mnemonic and its operands: one operand for SELECT, UPDB, UPDR and UPDN, none for the others
(30_encoding.md R76). -/
def commandOf (m : String) (ts : List (List Char)) : Option Instr :=
  match m, ts with
  | "NOP", [] => some .nop
  | "SELECT", [k] => (selectorOf k).map .select
  | "CONFIG", [] => some .config
  | "INIT", [] => some .init
  | "UPDB", [b] => (literalOf 8 b).map .updb
  | "UPDR", [b] => (literalOf 8 b).map .updr
  | "UPDN", [b] => (literalOf 8 b).map .updn
  | "FINAL", [] => some .final
  | "CLRERR", [] => some .clrerr
  | _, _ => none

/-- The inputs of a pseudo-instruction or a host register access (30_encoding.md R76, R77). -/
def pseudoOf (m : String) (ts : List (List Char)) : Option (List Input) :=
  match m, ts with
  | "WR", [r, v] => (registerOffset r).bind fun off => (literalOf 32 v).map fun x => [.write off 4 x]
  | "RD", [r] => (registerOffset r).map fun off => [.read off 4]
  | "SAVE", [] => some save
  | "RESTORE", [v] => (literalOf 32 v).map restore
  | "LOADSPEC", [w, r, p, i, x] =>
    (literalOf 8 w).bind fun w => (literalOf 1 r).bind fun r => (literalOf 32 p).bind fun p =>
      (literalOf 32 i).bind fun i => (literalOf 32 x).map fun x =>
        loadSpecListing { width := w, reflected := r = 1, poly := p, init := i, xorout := x }
  | _, _ => none

/-- The inputs of `UPDMANY.e` and `COMPUTE.e` lines. -/
def streamOf (m : List Char) (ts : List (List Char)) : Option (List Input) :=
  match m with
  | 'U' :: 'P' :: 'D' :: 'M' :: 'A' :: 'N' :: 'Y' :: '.' :: e =>
    (engineOf e).bind fun e => (byteOperands ts).map fun bs => updMany e bs
  | 'C' :: 'O' :: 'M' :: 'P' :: 'U' :: 'T' :: 'E' :: '.' :: e =>
    (engineOf e).bind fun e => (byteOperands ts).map fun bs => compute e bs
  | _ => none

/-- What one line of a listing sends to the block: nothing for a blank line, and none for a line that is in error
(30_encoding.md R76, R77). -/
def assembleLine (line : String) : Option (List Input) :=
  match lineTokens line with
  | [] => some []
  | m :: ts =>
    match commandOf (String.ofList m) ts with
    | some i => some [issueCommand i]
    | none => (pseudoOf (String.ofList m) ts).or (streamOf m ts)

/-- The inputs of a whole listing, line after line; none if a line is in error. -/
def assemble (lines : List String) : Option (List Input) := (lines.mapM assembleLine).map List.flatten

end Sys2Proof.Machine
end

