-- ==== Sys2Proof/Safety.lean ====
section
/-! DEFINITION. What claims about runs are stated in: the block's invariant (10_state.md R22, R24, R25, R32; 60_exceptions.md
R200, R203), a run of several steps, and an error-free state (60_exceptions.md R205). -/

namespace Sys2Proof.Machine

/-! ## The invariant -/

/-- A loaded spec is valid and its values fit its width (10_state.md R25), and its selector code is 0xFF or that of the
catalog entry it came from (R24). Without one, every field of `ACT` holds its reset value (R25). -/
def ActOk (s : State) : Prop :=
  (s.act.cfgv = true → s.act.toSpec.valid = true ∧
    (s.act.sel = 0xFF ∨ ∃ h : s.act.sel.toNat < 8, s.act.toSpec = catalogRom[s.act.sel.toNat])) ∧
  (s.act.cfgv = false → s.act = ActiveSpec.reset)

/-- With a spec active, CRC has no bit above its width (10_state.md R22). -/
def CrcFits (s : State) : Prop := s.act.cfgv = true → s.crc &&& ~~~ mask s.act.bits = 0

/-- The table is the active spec's; without one every entry is 0 (10_state.md R32). -/
def TableOk (s : State) : Prop :=
  (s.act.cfgv = true → s.table = tgen s.act.toSpec) ∧ (s.act.cfgv = false → s.table = Vector.replicate 16 0)

/-- ERR holds a code the block writes (60_exceptions.md R200), and without an error recorded EOVF and ERRCMD are clear (R203,
R206). -/
def ErrorRecordOk (s : State) : Prop := s.err.toNat ≤ 4 ∧ (s.err = 0 → s.eovf = false ∧ s.errcmd = 0)

/-- The catalog is the ROM (10_state.md R33). -/
def CatalogOk (s : State) : Prop := s.catalog = catalogRom

/-- What holds at every command boundary of a run from reset. -/
structure BlockInv (s : State) : Prop where
  catalog : CatalogOk s
  act : ActOk s
  crc : CrcFits s
  table : TableOk s
  errors : ErrorRecordOk s

/-! ## Errors of a command -/

/-- The error an instruction's own check reports in a state, if any (60_exceptions.md R200, R202). -/
def ownError (i : Instr) (s : State) : Option ErrorKind :=
  match i with
  | .nop => none
  | .select k => if k.toNat < 8 then none else some .unknownAlgorithm
  | .config => if s.stg.valid then none else some .invalidSpec
  | .init => if s.act.cfgv then none else some .notConfigured
  | .updb _ => if s.act.cfgv then none else some .notConfigured
  | .updr _ => if s.act.cfgv then none else some .notConfigured
  | .updn _ => if s.act.cfgv then none else some .notConfigured
  | .final => if s.act.cfgv then none else some .notConfigured
  | .clrerr => none

/-! ## Runs -/

/-- `n` steps of the machine. -/
def run (n : Nat) (s : State) : Host.Outcome State Fault Refusal := Host.Core.run Sys2Proof.core n s

/-- No command has failed since the record was last clear (60_exceptions.md R205). -/
def ErrorFree (s : State) : Prop := s.err = 0 ∧ s.eovf = false

/-- A run is safe when it ends in a state: every access it made was admitted (20_memory.md R53). -/
def SafeRun (n : Nat) (s : State) : Prop := ∃ t, run n s = .next t

/-- The left fold of the byte update over a stream, in byte order (43_control.md R162). -/
def foldBytes (sp : Spec) (s : Word) (bs : List Byte) : Word := bs.foldl (bitUpdate sp) s

end Sys2Proof.Machine
end

