-- ==== Sys2Proof/Certificates/Slice0/Obligations.lean ====
section
/-! DEFINITION. The statements for the provers, with the reference readings of the spec's arithmetic they are stated in. -/

namespace Sys2Proof.Reference

open Sys2Proof.Machine

/-! ## The spec's notation on numbers (00_scope.md R7, R8) -/

/-- `v[hi:lo]` as an unsigned number (00_scope.md R7). -/
def bits (c : Word) (hi lo : Nat) : Nat := c.toNat / 2 ^ lo % 2 ^ (hi - lo + 1)

/-- The reflected single-bit step on unbounded naturals (41_bitwise.md R120). -/
def stepR (s p : Nat) : Nat := if s % 2 = 1 then s / 2 ^^^ p else s / 2

/-- The non-reflected single-bit step on unbounded naturals, cut to the width (41_bitwise.md R121, 00_scope.md R8). -/
def stepN (s p w : Nat) : Nat := if s / 2 ^ (w - 1) % 2 = 1 then s * 2 % 2 ^ w ^^^ p else s * 2 % 2 ^ w

/-- `n` single-bit steps. -/
def steps (r : Bool) (p w : Nat) : Nat → Nat → Nat
  | 0, s => s
  | n + 1, s => steps r p w n (if r then stepR s p else stepN s p w)

/-- `bitUpdate` on unbounded naturals (41_bitwise.md R122). -/
def bitUpdate (w : Nat) (r : Bool) (p s b : Nat) : Nat := steps r p w 8 (s ^^^ if r then b else b * 2 ^ (w - 8))

/-- `tgen` on unbounded naturals (42_nibble.md R140). -/
def tgen (w : Nat) (r : Bool) (p i : Nat) : Nat := steps r p w 4 (if r then i else i * 2 ^ (w - 4))

/-- One repetition of `nibUpdate` on unbounded naturals (42_nibble.md R142). -/
def nibStep (w : Nat) (r : Bool) (t : Nat → Nat) (s : Nat) : Nat :=
  if r then s / 16 ^^^ t (s % 16) else s * 16 % 2 ^ w ^^^ t (s / 2 ^ (w - 4) % 16)

/-- `nibUpdate` on unbounded naturals (42_nibble.md R142). -/
def nibUpdate (w : Nat) (r : Bool) (t : Nat → Nat) (s b : Nat) : Nat :=
  nibStep w r t (nibStep w r t (s ^^^ if r then b else b * 2 ^ (w - 8)))

/-- One data bit enters the register: the bit leaving the register and the data bit decide whether the polynomial is
XORed in. Reflected registers shift towards bit 0, the others away from it. -/
def feedBit (sp : Spec) (s : Word) (d : Bool) : Word :=
  if sp.reflected then (s >>> 1) ^^^ (if s.getLsbD 0 ^^ d then sp.poly else 0)
  else ((s <<< 1) &&& mask sp.bits) ^^^ (if s.getLsbD (sp.bits - 1) ^^ d then sp.poly else 0)

/-- The bits of a byte in the order they enter: bit 0 first for a reflected spec, bit 7 first otherwise (20_memory.md R60). -/
def bitOrder (sp : Spec) (b : Byte) : List Bool :=
  if sp.reflected then (List.range 8).map b.getLsbD else (List.range 8).map fun i => b.getLsbD (7 - i)

/-- The state value fits the width of the spec. -/
def inWidth (sp : Spec) (s : Word) : Prop := s.toNat < 2 ^ sp.bits

/-! ## Words of an opcode (30_encoding.md R70, R73) -/

/-- Of the words with opcode `op`, those with both reserved fields 0 run the instruction with ARG as its operand, and every
other raises IllegalCommand. -/
def argWords (op : Nat) (i : Byte → Instr) (s : State) : Prop :=
  ∀ c : Word, bits c 3 0 = op →
    if bits c 7 4 = 0 ∧ bits c 31 16 = 0 then ∃ b : Byte, b.toNat = bits c 15 8 ∧ command c s = exec (i b) s
    else command c s = .next (raiseError .illegalCommand c s)

/-- Of the words with opcode `op`, the one with every other bit 0 runs the instruction, and every other raises
IllegalCommand. -/
def plainWords (op : Nat) (i : Instr) (s : State) : Prop :=
  ∀ c : Word, bits c 3 0 = op →
    if c.toNat = op then command c s = exec i s else command c s = .next (raiseError .illegalCommand c s)

/-! ## Streams (43_control.md R162) -/

/-- The data bytes an input feeds to the engine: one for an update command, none for anything else. -/
def dataOf (x : Input) : List Byte :=
  match x with
  | .write 0 4 c =>
    match decode c with
    | .ok (.updb b) => [b]
    | .ok (.updr b) => [b]
    | .ok (.updn b) => [b]
    | _ => []
  | _ => []

/-- An input that does not break into a stream: an admitted access that is no SELECT, CONFIG or INIT and no CRC write
(43_control.md R162). -/
def keepsStream (x : Input) : Bool :=
  match x with
  | .read off bytes => admitted off bytes
  | .write off bytes v =>
    admitted off bytes && off ≠ 0x08 &&
      (off ≠ 0x00 ||
        match decode v with
        | .ok (.select _) => false
        | .ok .config => false
        | .ok .init => false
        | _ => true)
  | .reset => false

end Sys2Proof.Reference

open Sys2Proof Sys2Proof.Machine

/-! ## Encoding -/

/-- 30_encoding.md R72, R73: words and instructions correspond one to one. In particular decoding an encoded instruction
gives it back, with every operand, and no word but its own decodes to it. -/
def Obligations.DecodeAndEncodeAgree : Prop :=
  (∀ i : Instr, decode (encode i) = .ok i) ∧ (∀ (c : Word) (i : Instr), decode c = .ok i → encode i = c)

/-- 30_encoding.md R73: a word is illegal exactly when OP is 9 or above, a reserved field is not 0, or ARG is not 0 on an
opcode that takes none; then no row of R72 covers it and it raises IllegalCommand. Every other word is covered by exactly
one row, and is dispatched with its OP and ARG. -/
def Obligations.EveryWordSelectsOneRowOrIsIllegal : Prop :=
  ∀ (c : Word) (s : State),
    if Reference.bits c 3 0 ≥ 0x9 ∨ Reference.bits c 7 4 ≠ 0 ∨ Reference.bits c 31 16 ≠ 0 ∨
        (Reference.bits c 3 0 ∈ [0x0, 0x2, 0x3, 0x7, 0x8] ∧ Reference.bits c 15 8 ≠ 0) then
      (opcodeMap.countP fun r => r.covers c) = 0 ∧ command c s = .next (raiseError .illegalCommand c s)
    else
      (opcodeMap.countP fun r => r.covers c) = 1 ∧
        ∃ i : Instr, i.row.covers c = true ∧ i.opcode.toNat = Reference.bits c 3 0 ∧ i.arg.toNat = Reference.bits c 15 8 ∧
          decode c = .ok i ∧ command c s = exec i s

/-- 30_encoding.md R72: one word of each instruction, written out bit by bit from the encoding column, decodes to it. -/
def Obligations.WrittenOutWordsDecode : Prop :=
  decode 0b00000000000000000000000000000000 = .ok .nop ∧
  decode 0b00000000000000001000000100000001 = .ok (.select 0x81) ∧
  decode 0b00000000000000000000000000000010 = .ok .config ∧
  decode 0b00000000000000000000000000000011 = .ok .init ∧
  decode 0b00000000000000001010010100000100 = .ok (.updb 0xA5) ∧
  decode 0b00000000000000000011111000000101 = .ok (.updr 0x3E) ∧
  decode 0b00000000000000000000000100000110 = .ok (.updn 0x01) ∧
  decode 0b00000000000000000000000000000111 = .ok .final ∧
  decode 0b00000000000000000000000000001000 = .ok .clrerr

/-! ## A step runs the command -/

/-- 20_memory.md R56: when the next host access writes `c` to CMD, the step is the command of `c` on the state without that
access, acknowledged: exec of the instruction `c` decodes to, or an IllegalCommand. A read of CMD returns 0. That the
accesses wait in a queue and that a reply is kept are the model's own choices (log 1, log 2). -/
def Obligations.CmdWriteStepRunsTheDecodedCommand : Prop :=
  ∀ (s : State) (c : Word) (rest : List Input), s.pending = .write 0x00 4 c :: rest →
    (∀ i t, decode c = .ok i → exec i { s with pending := rest } = .next t → step s = .next { t with reply := .ack }) ∧
    ((∀ i, decode c ≠ .ok i) →
      step s = .next { raiseError .illegalCommand c { s with pending := rest } with reply := .ack }) ∧
    (∀ u : State, u.pending = .read 0x00 4 :: rest → step u = .next { u with pending := rest, reply := .data 0 })

/-- The model's own (log 13): the next step after `withFetchWord` runs exactly the word's instruction, and leaves the inputs
that waited before. -/
def Obligations.WithFetchWordRunsTheWord : Prop :=
  ∀ (s t : State) (w : Nat) (i : Instr), decodeTableWord 32 w = some i → exec i s = .next t →
    step (s.withFetchWord 32 w) = .next { t with reply := .ack }

/-- 70_reset_and_hazards.md R237: every command finishes: whatever the instruction and the state, it answers a next state,
and so does every word written to CMD. -/
def Obligations.EveryCommandFinishes : Prop :=
  (∀ (i : Instr) (s : State), ∃ t, exec i s = .next t) ∧ (∀ (c : Word) (s : State), ∃ t, command c s = .next t)

/-! ## The commands -/

/-- 43_control.md R160: NOP writes no state, and every other word with OP 0 is an IllegalCommand. -/
def Obligations.NopWritesNothing : Prop :=
  ∀ s : State, exec .nop s = .next s ∧ Reference.plainWords 0x0 .nop s

/-- 43_control.md R161: CLRERR clears ERR, EOVF and ERRCMD and nothing else; an ill-formed CLRERR is an IllegalCommand, which
keeps ERR and sets EOVF if ERR was not zero. -/
def Obligations.ClrerrClearsTheErrorRecord : Prop :=
  ∀ s : State,
    exec .clrerr s = .next { s with err := 0, eovf := false, errcmd := 0 } ∧
    Reference.plainWords 0x8 .clrerr s ∧
    (∀ c : Word, Reference.bits c 3 0 = 0x8 → c.toNat ≠ 0x8 → s.err ≠ 0 → command c s = .next { s with eovf := true }) ∧
    (s.err = 0 → s.eovf = false → s.errcmd = 0 → exec .clrerr s = .next s) ∧
    (statusWord s = 0x0000FF31 → ∃ t, exec .clrerr s = .next t ∧ statusWord t = 0x0000FF01)

/-- 40_configuration.md R101: SELECT with a code below 8 loads the catalog entry into ACT, generates TABLE and loads CRC, and
changes nothing else; with a code of 8 or above it raises UnknownAlgorithm; the words of OP 1 with a reserved field not
zero are illegal. The example of the rule follows. -/
def Obligations.SelectLoadsTheCatalogEntry : Prop :=
  ∀ s : State,
    (∀ (k : Byte) (_ : k.toNat < 8), exec (.select k) s = .next { s with
      act := { toSpec := s.catalog[k.toNat], cfgv := true, sel := k }
      table := tgen s.catalog[k.toNat]
      crc := s.catalog[k.toNat].init }) ∧
    (∀ k : Byte, 8 ≤ k.toNat →
      exec (.select k) s = .next (raiseError .unknownAlgorithm (encode (.select k)) s)) ∧
    Reference.argWords 0x1 .select s ∧
    (s.catalog = catalogRom → ∃ t, exec (.select 4) s = .next t ∧
      t.act = { width := 16, reflected := false, poly := 0x1021, init := 0xFFFF, xorout := 0, cfgv := true, sel := 4 } ∧
      t.crc = 0x0000FFFF ∧ t.table[1] = 0x00001021)

/-- 40_configuration.md R103, R104: CONFIG loads the staged spec when its width is 8, 16 or 32 and its values fit, with
selector code 0xFF, and keeps the staging registers; otherwise it raises InvalidSpec. Every other word with OP 2 is illegal.
The example of the rule follows. -/
def Obligations.ConfigLoadsTheStagedSpec : Prop :=
  ∀ s : State,
    (let w := s.stg.width.toNat
     if (w = 8 ∨ w = 16 ∨ w = 32) ∧ s.stg.poly.toNat < 2 ^ w ∧ s.stg.init.toNat < 2 ^ w ∧ s.stg.xorout.toNat < 2 ^ w then
       exec .config s = .next { s with
         act := { toSpec := s.stg, cfgv := true, sel := 0xFF }
         table := tgen s.stg
         crc := s.stg.init }
     else exec .config s = .next (raiseError .invalidSpec 0x00000002 s)) ∧
    Reference.plainWords 0x2 .config s ∧
    (s.stg = { width := 8, reflected := false, poly := 0x07, init := 0x00, xorout := 0x00 } →
      ∃ t, exec .config s = .next t ∧
        t.act = { width := 8, reflected := false, poly := 0x07, init := 0x00, xorout := 0x00, cfgv := true, sel := 0xFF } ∧
        t.crc = 0 ∧ t.table[1] = 0x07)

/-- 41_bitwise.md R124: INIT loads ACT.init into CRC and changes nothing else; without a spec it raises NotConfigured; every
other word with OP 3 is illegal; right after a SELECT or CONFIG that succeeded it changes nothing. -/
def Obligations.InitLoadsTheInitialValue : Prop :=
  ∀ s : State,
    (s.act.cfgv = true → exec .init s = .next { s with crc := s.act.init }) ∧
    (s.act.cfgv = false → exec .init s = .next (raiseError .notConfigured 0x00000003 s)) ∧
    Reference.plainWords 0x3 .init s ∧
    (∀ (k : Byte) (t : State), k.toNat < 8 → exec (.select k) s = .next t → exec .init t = .next t) ∧
    (∀ t : State, s.stg.valid = true → exec .config s = .next t → exec .init t = .next t) ∧
    (s.act.cfgv = true → s.act.toSpec = catalogRom[6] → exec .init s = .next { s with crc := 0xFFFFFFFF }) ∧
    (s.act.cfgv = true → s.act.toSpec = catalogRom[5] → exec .init s = .next { s with crc := 0x0000 })

/-- 41_bitwise.md R125: UPDB folds its byte into CRC by `bitUpdate` and changes nothing else; without a spec it raises
NotConfigured; the words of OP 4 with a reserved field not zero are illegal. The all-ones case and the example of the rule
follow; the cases the rule derives are in `ZeroInputsOnlyShift`. -/
def Obligations.UpdbFoldsOneByte : Prop :=
  ∀ s : State,
    (∀ b : Byte, s.act.cfgv = true →
      exec (.updb b) s = .next { s with crc := bitUpdate s.act.toSpec s.crc b }) ∧
    (∀ b : Byte, s.act.cfgv = false →
      exec (.updb b) s = .next (raiseError .notConfigured (encode (.updb b)) s)) ∧
    Reference.argWords 0x4 .updb s ∧
    (s.act.cfgv = true → s.act.toSpec = catalogRom[0] → s.crc = 0xFF → exec (.updb 0xFF) s = .next { s with crc := 0 }) ∧
    (s.act.cfgv = true → s.act.toSpec = catalogRom[4] → s.crc = 0xFFFF →
      exec (.updb 0x01) s = .next { s with crc := 0xF1D1 })

/-- 41_bitwise.md R126: UPDR folds its byte into CRC by `bitUpdate`, the same as UPDB, and changes nothing else; without a
spec it raises NotConfigured; the words of OP 5 with a reserved field not zero are illegal. The example follows. -/
def Obligations.UpdrFoldsOneByteAsUpdbDoes : Prop :=
  ∀ s : State,
    (∀ b : Byte, s.act.cfgv = true →
      exec (.updr b) s = .next { s with crc := bitUpdate s.act.toSpec s.crc b } ∧ exec (.updr b) s = exec (.updb b) s) ∧
    (∀ b : Byte, s.act.cfgv = false →
      exec (.updr b) s = .next (raiseError .notConfigured (encode (.updr b)) s)) ∧
    Reference.argWords 0x5 .updr s ∧
    (s.act.cfgv = true → s.act.toSpec = catalogRom[6] → s.crc = 0xFFFFFFFF →
      exec (.updr 0x00) s = .next { s with crc := 0x2DFD1072 })

/-- 41_bitwise.md section 3 (corner cases of R125, which the spec derives from R120 to R122): with byte 0 and CRC 0 the update
gives 0, and with polynomial 0 it is a plain shift, which gives 0 at width 8. -/
def Obligations.ZeroInputsOnlyShift : Prop :=
  ∀ s : State,
    (s.act.cfgv = true → s.crc = 0 → exec (.updb 0) s = .next s) ∧
    (∀ b : Byte, BlockInv s → s.act.cfgv = true → s.act.poly = 0 → exec (.updb b) s = .next { s with
      crc := if s.act.bits = 8 then 0
        else if s.act.reflected then (s.crc ^^^ b.setWidth 32) >>> 8
        else ((s.crc ^^^ (b.setWidth 32 <<< (s.act.bits - 8))) <<< 8) &&& mask s.act.bits })

/-- 42_nibble.md R143: UPDN folds its byte into CRC by `nibUpdate` with the table as it stands, and changes nothing else;
without a spec it raises NotConfigured; the words of OP 6 with a reserved field not zero are illegal. The corner cases and
the example of the rule follow. -/
def Obligations.UpdnFoldsOneByteByTable : Prop :=
  ∀ s : State,
    (∀ b : Byte, s.act.cfgv = true →
      exec (.updn b) s = .next { s with crc := nibUpdate s.act.toSpec s.table s.crc b }) ∧
    (∀ b : Byte, s.act.cfgv = false →
      exec (.updn b) s = .next (raiseError .notConfigured (encode (.updn b)) s)) ∧
    Reference.argWords 0x6 .updn s ∧
    (BlockInv s → s.act.cfgv = true → s.crc = 0 → exec (.updn 0) s = .next s) ∧
    (∀ b : Byte, BlockInv s → s.act.cfgv = true → s.act.poly = 0 → exec (.updn b) s = exec (.updb b) s) ∧
    (BlockInv s → s.act.cfgv = true → s.act.toSpec = catalogRom[6] → s.crc = 0xFFFFFFFF →
      exec (.updn 0xFF) s = .next { s with crc := 0x00FFFFFF }) ∧
    (BlockInv s → s.act.cfgv = true → s.act.toSpec = catalogRom[4] → s.crc = 0xFFFF →
      exec (.updn 0x01) s = .next { s with crc := 0xF1D1 })

/-- 41_bitwise.md R127: FINAL latches CRC XOR ACT.xorout in RESULT and changes nothing else, CRC in particular; without a
spec it raises NotConfigured; every other word with OP 7 is illegal. Right after INIT it gives init XOR xorout. The
examples follow. -/
def Obligations.FinalLatchesTheChecksum : Prop :=
  ∀ s : State,
    (s.act.cfgv = true → exec .final s = .next { s with result := s.crc ^^^ s.act.xorout }) ∧
    (s.act.cfgv = false → exec .final s = .next (raiseError .notConfigured 0x00000007 s)) ∧
    Reference.plainWords 0x7 .final s ∧
    (∀ t : State, s.act.cfgv = true → exec .init s = .next t →
      exec .final t = .next { t with result := s.act.init ^^^ s.act.xorout }) ∧
    (s.act.cfgv = true → s.act.toSpec = catalogRom[6] → s.crc = 0x803893D0 →
      exec .final s = .next { s with result := 0x7FC76C2F }) ∧
    (s.act.cfgv = true → s.act.toSpec = catalogRom[1] → s.crc = 0x6D → exec .final s = .next { s with result := 0x92 })

/-- 40_configuration.md section 1: what the host reads after SELECT of each code, from any state with the catalog as
manufactured: width, reflection, polynomial, init and xorout of the row, the selector code and CFGV in STATUS, and CRC. Row 2
(CRC8-J1850) is the spec's own from general knowledge (log 9), and the init of row 6 is that of conflict C1 (log 10). -/
def Obligations.SelectedRowsReadBack : Prop :=
  ∀ s : State, s.catalog = catalogRom →
    ∀ row ∈ ([(0x0, 0x108, 0x8C, 0x00, 0x00), (0x1, 0x008, 0x2F, 0xFF, 0xFF), (0x2, 0x008, 0x1D, 0xFF, 0xFF),
        (0x3, 0x110, 0xA001, 0xFFFF, 0x0000), (0x4, 0x010, 0x1021, 0xFFFF, 0x0000), (0x5, 0x010, 0x1021, 0x0000, 0x0000),
        (0x6, 0x120, 0xEDB88320, 0xFFFFFFFF, 0xFFFFFFFF), (0x7, 0x020, 0x04C11DB7, 0x00000000, 0xFFFFFFFF)] :
        List (Byte × Word × Word × Word × Word)),
      ∃ t, exec (.select row.1) s = .next t ∧ memRead 0x2C t = row.2.1 ∧ memRead 0x20 t = row.2.2.1 ∧
        memRead 0x24 t = row.2.2.2.1 ∧ memRead 0x28 t = row.2.2.2.2 ∧ memRead 0x08 t = row.2.2.2.1 ∧
        Reference.bits (memRead 0x04 t) 15 8 = row.1.toNat ∧ Reference.bits (memRead 0x04 t) 0 0 = 1

/-- 42_nibble.md R141 and 10_state.md R26, R31: a command either leaves ACT and TABLE alone, or is a SELECT or CONFIG that replaces the
whole of ACT and with it TABLE and CRC. -/
def Obligations.CommandsReplaceTheSpecWhole : Prop :=
  ∀ (i : Instr) (s t : State), exec i s = .next t →
    (t.act = s.act ∧ t.table = s.table) ∨
    ((i = .config ∨ ∃ k, i = .select k) ∧
      ∃ (sp : Spec) (sel : Byte), t = { s with
        act := { toSpec := sp, cfgv := true, sel := sel }, table := tgen sp, crc := sp.init })

/-! ## Errors -/

/-- 60_exceptions.md R203: the first error is recorded with its code and its word, a later one only sets EOVF, and no other
state is written. The codes are those of R200. -/
def Obligations.ErrorsAreRecordedOnce : Prop :=
  ∀ (c : Word) (s : State) (e : ErrorKind) (code : BitVec 4),
    (e, code) ∈ [(ErrorKind.invalidSpec, 1#4), (.unknownAlgorithm, 2#4), (.notConfigured, 3#4), (.illegalCommand, 4#4)] →
    (s.err = 0 → raiseError e c s = { s with err := code, errcmd := c }) ∧
    (s.err ≠ 0 → raiseError e c s = { s with eovf := true })

/-- 60_exceptions.md R202: a word reports at most one error: IllegalCommand if it does not decode, else the one its opcode's
own check finds, recorded with the word itself; and a command that passes its check completes without touching the error
record, CLRERR apart. -/
def Obligations.CommandsReportOneErrorInPriority : Prop :=
  ∀ (c : Word) (s : State),
    ((∀ i, decode c ≠ .ok i) → command c s = .next (raiseError .illegalCommand c s)) ∧
    (∀ i e, decode c = .ok i → ownError i s = some e → command c s = .next (raiseError e c s)) ∧
    (∀ i, decode c = .ok i → ownError i s = none →
      ∃ t, command c s = .next t ∧ (i ≠ .clrerr → t.err = s.err ∧ t.eovf = s.eovf ∧ t.errcmd = s.errcmd))

/-- 60_exceptions.md R201: without an active spec INIT, UPDB, UPDR, UPDN and FINAL raise NotConfigured and have no other
effect; NOP, CLRERR, SELECT, CONFIG and host register accesses never raise it, and a CRC write is then ignored. -/
def Obligations.CommandsThatNeedASpecRaiseNotConfigured : Prop :=
  (∀ (s : State) (i : Instr), s.act.cfgv = false →
    (i = .init ∨ i = .final ∨ ∃ b, i = .updb b ∨ i = .updr b ∨ i = .updn b) →
    exec i s = .next (raiseError .notConfigured (encode i) s)) ∧
  (∀ (s t : State) (i : Instr), (i = .nop ∨ i = .clrerr ∨ i = .config ∨ ∃ k, i = .select k) → exec i s = .next t →
    s.err ≠ 3 → t.err ≠ 3) ∧
  (∀ (s : State) (off : Nat) (v : Word), (writeRegister off v s).err = s.err ∧
    (s.act.cfgv = false → writeRegister 0x08 v s = s))

/-- 60_exceptions.md R203 and R243: ERR and ERRCMD keep the first error through every step but CLRERR and reset. -/
def Obligations.FirstErrorIsSticky : Prop :=
  ∀ (s t : State) (x : Input) (rest : List Input), s.pending = x :: rest → x ≠ .reset → x ≠ .write 0x00 4 0x00000008 →
    s.err ≠ 0 → step s = .next t → t.err = s.err ∧ t.errcmd = s.errcmd

/-- 60_exceptions.md section 3 (R205) and 10_state.md section 6 (R29): commands execute alike whatever the error record holds; only the record itself can differ
after. -/
def Obligations.ErrorRecordDoesNotSteerCommands : Prop :=
  ∀ (i : Instr) (s : State) (e : BitVec 4) (o : Bool) (w : Word),
    ∃ t t', exec i s = .next t ∧ exec i { s with err := e, eovf := o, errcmd := w } = .next t' ∧
      t = { t' with err := t.err, eovf := t.eovf, errcmd := t.errcmd }

/-! ## The engines' functions -/

/-- 41_bitwise.md R120, R121: the single-bit steps, read on unbounded naturals and cut to the width. -/
def Obligations.BitStepsMatchTheNaturals : Prop :=
  ∀ (w : Nat) (s p : Word), 1 ≤ w → w ≤ 32 → s.toNat < 2 ^ w → p.toNat < 2 ^ w →
    (stepR s p w).toNat = Reference.stepR s.toNat p.toNat ∧
    (stepN s p w).toNat = Reference.stepN s.toNat p.toNat w

/-- 41_bitwise.md R122: the byte update, read on unbounded naturals; it stays within the width. -/
def Obligations.BitUpdateMatchesTheNaturals : Prop :=
  ∀ (sp : Spec) (s : Word) (b : Byte), sp.valid = true → Reference.inWidth sp s →
    (bitUpdate sp s b).toNat = Reference.bitUpdate sp.bits sp.reflected sp.poly.toNat s.toNat b.toNat ∧
    Reference.inWidth sp (bitUpdate sp s b)

/-- 20_memory.md section 4 (R60, in the reading of log 20): the byte update is the eight data bits entering one after another,
bit 0 first for a reflected spec and bit 7 first otherwise. -/
def Obligations.DataBitsEnterInReflectedOrder : Prop :=
  ∀ (sp : Spec) (s : Word) (b : Byte), sp.valid = true → Reference.inWidth sp s →
    bitUpdate sp s b = (Reference.bitOrder sp b).foldl (Reference.feedBit sp) s

/-- 42_nibble.md R140: the table entries, read on unbounded naturals; they stay within the width and depend on width,
reflection and polynomial only. -/
def Obligations.TableEntriesMatchTheNaturals : Prop :=
  ∀ (sp : Spec), sp.valid = true →
    (∀ (i : Nat) (_ : i < 16), (tgen sp)[i].toNat = Reference.tgen sp.bits sp.reflected sp.poly.toNat i ∧
      Reference.inWidth sp (tgen sp)[i]) ∧
    (∀ (x y : Word), tgen { sp with init := x, xorout := y } = tgen sp)

/-- 42_nibble.md R142: the table-driven update, read on unbounded naturals, for any table whose entries fit the width. -/
def Obligations.NibUpdateMatchesTheNaturals : Prop :=
  ∀ (sp : Spec) (T : Vector Word 16) (s : Word) (b : Byte), sp.valid = true → Reference.inWidth sp s →
    (∀ (i : Nat) (_ : i < 16), Reference.inWidth sp T[i]) →
    (nibUpdate sp T s b).toNat =
      Reference.nibUpdate sp.bits sp.reflected (fun i => if h : i < 16 then T[i].toNat else 0) s.toNat b.toNat ∧
    Reference.inWidth sp (nibUpdate sp T s b)

/-- 42_nibble.md section 3 (R145, which the spec derives from R140): entry 0 is 0; entry 8 of a reflected table and entry 1 of
a non-reflected one are the polynomial; the table is linear in its index. -/
def Obligations.TableIsLinearInItsIndex : Prop :=
  ∀ (sp : Spec), sp.valid = true →
    (tgen sp)[0] = 0 ∧ (sp.reflected = true → (tgen sp)[8] = sp.poly) ∧ (sp.reflected = false → (tgen sp)[1] = sp.poly) ∧
    (∀ (i j : BitVec 4), (tgen sp).get (i ^^^ j).toFin = (tgen sp).get i.toFin ^^^ (tgen sp).get j.toFin)

/-- 42_nibble.md section 3 (R144, which the spec derives from R140 and R142): for every valid spec, every state within its
width and every byte, the table-driven update is the bit-serial update. -/
def Obligations.TableEngineAgreesWithBitSerial : Prop :=
  ∀ (sp : Spec) (s : Word) (b : Byte), sp.valid = true → Reference.inWidth sp s →
    nibUpdate sp (tgen sp) s b = bitUpdate sp s b

/-- 41_bitwise.md section 2 (R123): in every state the invariant admits, with a spec active, the three update commands
leave the same state. That UPDR is defined by the same function as UPDB is the spec's direction for a model (log 11). -/
def Obligations.TheThreeEnginesAgree : Prop :=
  ∀ (s : State) (b : Byte), BlockInv s → s.act.cfgv = true →
    exec (.updn b) s = .next { s with crc := bitUpdate s.act.toSpec s.crc b } ∧
    exec (.updb b) s = exec (.updn b) s ∧ exec (.updr b) s = exec (.updn b) s

/-- 41_bitwise.md section 3 (a corner case of R125, which the spec derives from R122): the byte update is linear over GF(2)
in the pair of state and byte, for every spec. -/
def Obligations.ByteUpdateIsLinear : Prop :=
  ∀ (sp : Spec) (s s' : Word) (b b' : Byte),
    bitUpdate sp (s ^^^ s') (b ^^^ b') = bitUpdate sp s b ^^^ bitUpdate sp s' b'

/-- 95_test_vectors.md section 1.1: the source's known vectors: init, the eight bytes `01 32 F0 21 97 68 22 3E`, then the
output mask, for codes 0, 3, 4, 5 and 6. -/
def Obligations.KnownVectorsOfTheSource : Prop :=
  ∀ row ∈ ([(0, 0x7C), (3, 0x2B0E), (4, 0x6EBB), (5, 0x5F85), (6, 0x7FC76C2F)] : List (Fin 8 × Word)),
    foldBytes (catalogRom.get row.1) (catalogRom.get row.1).init [0x01, 0x32, 0xF0, 0x21, 0x97, 0x68, 0x22, 0x3E] ^^^
      (catalogRom.get row.1).xorout = row.2

/-! ## Host accesses -/

/-- 20_memory.md section 2 (R53): an access of another width, at an offset that is no multiple of 4, or at 0x80 or above is
refused, and every admitted access has a step. That such an access ends the run, and that accesses wait in a queue, are the
model's own (log 4, log 1). The last two cases are not R53's: that a reset input has a step (70_reset_and_hazards.md section 1)
rests on log 6, and that an empty queue has one (10_state.md section 1) on log 3. -/
def Obligations.OnlyUnadmittedAccessesAreRefused : Prop :=
  (∀ (s : State) (off bytes : Nat) (v : Word) (rest : List Input), (bytes ≠ 4 ∨ off % 4 ≠ 0 ∨ off ≥ 0x80) →
    (s.pending = .read off bytes :: rest ∨ s.pending = .write off bytes v :: rest) →
    step s = .refused .accessNotAdmitted) ∧
  (∀ (s : State) (off : Nat) (v : Word) (rest : List Input), off % 4 = 0 → off < 0x80 →
    (s.pending = .read off 4 :: rest ∨ s.pending = .write off 4 v :: rest ∨ s.pending = .reset :: rest ∨ s.pending = []) →
    ∃ t, step s = .next t)

/-- 20_memory.md R54: what a read of each admitted offset returns: the register of the map, CMD and the reserved offsets
reading 0. `memRead` gives a value and no state, so a read changes none; the step that serves one is in
`AdmittedAccessesAreServed`. -/
def Obligations.ReadsReturnTheRegister : Prop :=
  ∀ (s : State) (off : Nat) (v : Word),
    ((off, v) ∈ [(0x00, 0), (0x08, s.crc), (0x0C, s.result), (0x10, s.stg.poly), (0x14, s.stg.init), (0x18, s.stg.xorout),
        (0x20, s.act.poly), (0x24, s.act.init), (0x28, s.act.xorout), (0x30, s.errcmd), (0x34, 0), (0x38, 0), (0x3C, 0)] ∨
      (off = 0x04 ∧
        v.toNat = s.act.sel.toNat * 2 ^ 8 + s.err.toNat * 2 ^ 4 + s.eovf.toNat * 2 + s.act.cfgv.toNat) ∨
      (off = 0x1C ∧ v.toNat = s.stg.reflected.toNat * 2 ^ 8 + s.stg.width.toNat) ∨
      (off = 0x2C ∧ v.toNat = s.act.reflected.toNat * 2 ^ 8 + s.act.width.toNat) ∨
      (∃ (i : Nat) (_ : i < 16), off = 0x40 + 4 * i ∧ v = s.table[i])) →
    memRead off s = v

/-- 20_memory.md R55: an admitted write executes the value as a command at CMD; elsewhere it writes CRC as R58 says, stores to
the staging register of the offset, and has no effect and raises no error at a read-only or reserved offset. -/
def Obligations.WritesReachTheWritableRegisters : Prop :=
  ∀ (s : State) (off : Nat) (v : Word), off % 4 = 0 → off < 0x80 →
    (off = 0x00 → memWrite off v s = command v s) ∧
    (off ≠ 0x00 → memWrite off v s = .next { s with
      crc := if off = 0x08 ∧ s.act.cfgv = true then v &&& BitVec.ofNat 32 (2 ^ s.act.width.toNat - 1) else s.crc
      stg := { poly := if off = 0x10 then v else s.stg.poly
               init := if off = 0x14 then v else s.stg.init
               xorout := if off = 0x18 then v else s.stg.xorout
               width := if off = 0x1C then BitVec.ofNat 8 (Reference.bits v 7 0) else s.stg.width
               reflected := if off = 0x1C then Reference.bits v 8 8 = 1 else s.stg.reflected } })

/-- 20_memory.md section 3: a step serves the admitted access that waits first: a read leaves every register as it was and
gives the register's value, a write has its effect and is acknowledged. The queue of accesses and the reply are the model's
own (log 1, log 2). -/
def Obligations.AdmittedAccessesAreServed : Prop :=
  ∀ (s : State) (off : Nat) (rest : List Input), off % 4 = 0 → off < 0x80 →
    (s.pending = .read off 4 :: rest → step s = .next { s with pending := rest, reply := .data (memRead off s) }) ∧
    (∀ (v : Word) (t : State), s.pending = .write off 4 v :: rest → memWrite off v { s with pending := rest } = .next t →
      step s = .next { t with reply := .ack })

/-- 20_memory.md R58: a host write of CRC under an active spec keeps the value modulo 2^width, so it reads back as a value of
the width; the corner case of the rule follows. -/
def Obligations.CrcWriteKeepsTheWidth : Prop :=
  ∀ (s : State) (v : Word), ActOk s →
    (s.act.cfgv = true → writeRegister 0x08 v s = { s with crc := BitVec.ofNat 32 (v.toNat % 2 ^ s.act.width.toNat) }) ∧
    (s.act.cfgv = false → writeRegister 0x08 v s = s) ∧
    (s.act.cfgv = true → s.act.width = 8 → writeRegister 0x08 0x12345678 s = { s with crc := 0x00000078 })

/-- 20_memory.md R61: a read leaves every register alone and a second read returns the same; a second write of the same value
to any register but CMD changes nothing more; and two commands are not one. -/
def Obligations.WritesButCommandsAreIdempotent : Prop :=
  (∀ (s t : State) (off : Nat), serve (.read off 4) s = .next t → serve (.read off 4) t = .next t ∧ { t with reply := s.reply } = s) ∧
  (∀ (s t : State) (off : Nat) (v : Word), off ≠ 0x00 → serve (.write off 4 v) s = .next t → serve (.write off 4 v) t = .next t) ∧
  (∃ s t u, BlockInv s ∧ serve (.write 0x00 4 0x00000004) s = .next t ∧ serve (.write 0x00 4 0x00000004) t = .next u ∧ u ≠ t)

/-- 70_reset_and_hazards.md section 2 (R232): the four staging writes may come in any order: each order leaves the staging registers
holding the four values, and a CONFIG after them loads the same spec. -/
def Obligations.StagingWritesComeInAnyOrder : Prop :=
  ∀ (s : State) (sp : Spec) (xs rest : List Input),
    xs.Perm [.write 0x10 4 sp.poly, .write 0x14 4 sp.init, .write 0x18 4 sp.xorout, .write 0x1C 4 sp.ctrlWord] →
    s.pending = xs ++ issueCommand .config :: rest → sp.valid = true →
    run 5 s = .next { s with
      stg := sp
      act := { toSpec := sp, cfgv := true, sel := 0xFF }
      table := tgen sp
      crc := sp.init
      pending := rest
      reply := .ack }

/-- 20_memory.md section 1 (R51): an access to `CRC_BASE + off` reaches the register at `off`, for every base and so for the
free value `Config.crcBase`, and an address outside the window reaches none. -/
def Obligations.WindowSitsAtTheBase : Prop :=
  (∀ (base addr : Nat) (v : Word),
    (∀ off, off < 0x80 → addr = base + off →
      readAt base addr = some (.read off 4) ∧ writeAt base addr v = some (.write off 4 v)) ∧
    ((addr < base ∨ base + 0x80 ≤ addr) → readAt base addr = none ∧ writeAt base addr v = none)) ∧
  (∀ (off : Nat) (v : Word), off < 0x80 →
    hostRead (Config.crcBase + off) = some (.read off 4) ∧ hostWrite (Config.crcBase + off) v = some (.write off 4 v))

/-- 60_exceptions.md section 6 (R213): the host observes all state but the catalog: two states that read alike at every
admitted offset hold the same registers. -/
def Obligations.TheWindowShowsAllRegisters : Prop :=
  ∀ s t : State, (∀ off, off % 4 = 0 → off < 0x80 → memRead off s = memRead off t) →
    t = { s with catalog := t.catalog, pending := t.pending, reply := t.reply }

/-! ## Frames -/

/-- What each command leaves as it was, seen through the window: the commands that succeed change only the registers named
here, and a command that fails changes at most STATUS and ERRCMD. Of STATUS, SELECT and CONFIG change CFGV and SEL and
CLRERR changes ERR and EOVF (10_state.md R29); the staging registers read as before after every command (R27). -/
def Obligations.CommandsLeaveOtherRegistersAlone : Prop :=
  ∀ (i : Instr) (s t : State) (off : Nat), exec i s = .next t → off % 4 = 0 → off < 0x80 →
    (match ownError i s with
      | some _ => off ∉ [0x04, 0x30]
      | none =>
        match i with
        | .nop => True
        | .select _ => off ∉ [0x04, 0x08, 0x20, 0x24, 0x28, 0x2C] ∧ off < 0x40
        | .config => off ∉ [0x04, 0x08, 0x20, 0x24, 0x28, 0x2C] ∧ off < 0x40
        | .init => off ≠ 0x08
        | .updb _ => off ≠ 0x08
        | .updr _ => off ≠ 0x08
        | .updn _ => off ≠ 0x08
        | .final => off ≠ 0x0C
        | .clrerr => off ∉ [0x04, 0x30]) →
    memRead off t = memRead off s

/-- 10_state.md R27: no command writes the staging registers; only a host write to one of them and reset do. -/
def Obligations.OnlyTheHostWritesStaging : Prop :=
  (∀ (i : Instr) (s t : State), exec i s = .next t → t.stg = s.stg) ∧
  (∀ s t : State, step s = .next t → t.stg ≠ s.stg →
    (∃ off v rest, s.pending = .write off 4 v :: rest ∧ off ∈ [0x10, 0x14, 0x18, 0x1C]) ∨
    (∃ rest, s.pending = .reset :: rest ∧ t.stg = { width := 0, reflected := false, poly := 0, init := 0, xorout := 0 }))

/-- 10_state.md R23: RESULT changes only by FINAL, which latches CRC XOR ACT.xorout, a value within the width, and by reset,
which clears it; it reads at 0x0C and ignores host writes. -/
def Obligations.OnlyFinalWritesResult : Prop :=
  (∀ s t : State, step s = .next t → t.result ≠ s.result →
    (∃ rest, s.pending = .write 0x00 4 0x00000007 :: rest ∧ s.act.cfgv = true ∧ t.result = s.crc ^^^ s.act.xorout) ∨
    (∃ rest, s.pending = .reset :: rest ∧ t.result = 0)) ∧
  (∀ s t : State, BlockInv s → s.act.cfgv = true → exec .final s = .next t → t.result.toNat < 2 ^ s.act.width.toNat) ∧
  (∀ (s : State) (v : Word), memRead 0x0C s = s.result ∧ writeRegister 0x0C v s = s)

/-- 10_state.md R24: ACT changes only by a SELECT or a CONFIG that succeeds, which write all of its fields together, and by
reset; no host write of a register changes it. -/
def Obligations.OnlySelectAndConfigWriteAct : Prop :=
  ∀ s t : State, step s = .next t → t.act ≠ s.act →
    (∃ (k : Byte) (rest : List Input) (_ : k.toNat < 8), s.pending = issueCommand (.select k) :: rest ∧
      t.act = { toSpec := s.catalog[k.toNat], cfgv := true, sel := k }) ∨
    (∃ rest, s.pending = issueCommand .config :: rest ∧ s.stg.valid = true ∧
      t.act = { toSpec := s.stg, cfgv := true, sel := 0xFF }) ∨
    (∃ rest, s.pending = .reset :: rest ∧ t.act = ActiveSpec.reset)

/-- 10_state.md section 3 (R22): CRC is written only by SELECT, CONFIG, INIT, UPDB, UPDR and UPDN, by a host write to offset
0x08, and by reset. -/
def Obligations.WritersOfCrc : Prop :=
  ∀ s t : State, step s = .next t → t.crc ≠ s.crc →
    (∃ i rest, s.pending = issueCommand i :: rest ∧ i ≠ .nop ∧ i ≠ .final ∧ i ≠ .clrerr) ∨
    (∃ v rest, s.pending = .write 0x08 4 v :: rest ∧ s.act.cfgv = true) ∨
    (∃ rest, s.pending = .reset :: rest)

/-- 10_state.md section 8 (R33): no step changes the catalog, reset included. -/
def Obligations.CatalogIsNeverWritten : Prop :=
  ∀ s t : State, step s = .next t → t.catalog = s.catalog

/-- 20_memory.md section 6 (R62): each step serves exactly the oldest access and leaves the others in their order, and with
none waiting the block does nothing. The queue and the idle step are the model's own (log 1, log 3). -/
def Obligations.InputsAreServedInOrder : Prop :=
  (∀ (s t : State) (x : Input) (rest : List Input), s.pending = x :: rest → step s = .next t → t.pending = rest) ∧
  (∀ s : State, s.pending = [] → step s = .next s)

/-! ## Reset and the invariant -/

/-- 10_state.md R36: the value of every register after reset, in the state after reset and in the state a reset leaves from
any other; the catalog ROM is unchanged. -/
def Obligations.ResetSetsEveryRegister : Prop :=
  ∀ s t : State, (t = State.reset ∨ t = resetBlock s) →
    t.crc = 0 ∧ t.result = 0 ∧
    t.act = { width := 0, reflected := false, poly := 0, init := 0, xorout := 0, cfgv := false, sel := 0xFF } ∧
    t.stg = { width := 0, reflected := false, poly := 0, init := 0, xorout := 0 } ∧
    t.err = 0 ∧ t.eovf = false ∧ t.errcmd = 0 ∧ (∀ (i : Nat) (_ : i < 16), t.table[i] = 0) ∧
    (∀ off, off % 4 = 0 → off < 0x80 → memRead off t = if off = 0x04 then 0x0000FF00 else 0) ∧
    (resetBlock s).catalog = s.catalog

/-- 70_reset_and_hazards.md section 1 (R230): a reset input resets the block from whatever state it is in. That reset is an
input like an access, and leaves the inputs that wait behind it, is the model's choice (log 6). -/
def Obligations.ResetInputResetsTheBlock : Prop :=
  ∀ (s : State) (rest : List Input), s.pending = .reset :: rest →
    step s = .next { State.reset with catalog := s.catalog, pending := rest }

/-- The invariant, the model's grouping of the spec's (log 19), holds after reset (10_state.md section 10). -/
def Obligations.InvariantHoldsAtReset : Prop := BlockInv State.reset

/-- 10_state.md R22, R24, R25, R32 and 60_exceptions.md R200, R203 together: every step of every state that meets the
invariant meets it again: the active spec stays valid or empty, CRC stays within the width, the table stays that of the
active spec, the error record stays consistent, and the catalog stays the ROM. -/
def Obligations.EveryStepKeepsTheInvariant : Prop :=
  ∀ s t : State, BlockInv s → step s = .next t → BlockInv t

/-! ## Streams -/

/-- 43_control.md section 2 (R162, which the spec derives): a stream fed with any mixture of the three engines, with other
admitted accesses between, leaves CRC as the fold of the byte update over its bytes in order, however it is cut; the spec
stays. -/
def Obligations.StreamsFoldTheirBytes : Prop :=
  ∀ (s : State) (xs rest : List Input), BlockInv s → s.act.cfgv = true → s.pending = xs ++ rest →
    (∀ x ∈ xs, Reference.keepsStream x = true) →
    ∃ t, run xs.length s = .next t ∧ t.crc = foldBytes s.act.toSpec s.crc (xs.flatMap Reference.dataOf) ∧
      t.act = s.act ∧ t.pending = rest

/-- 43_control.md section 2 (R163, which the spec derives): COMPUTE with any engine leaves the checksum in RESULT and the fold
in CRC, and changes no other register; with no bytes the checksum is init XOR xorout. -/
def Obligations.ComputeLeavesTheChecksum : Prop :=
  ∀ (s : State) (e : Engine) (bs : List Byte) (rest : List Input), BlockInv s → s.act.cfgv = true →
    s.pending = compute e bs ++ rest →
    run (bs.length + 2) s = .next { s with
      crc := foldBytes s.act.toSpec s.act.init bs
      result := foldBytes s.act.toSpec s.act.init bs ^^^ s.act.xorout
      pending := rest
      reply := .ack }

/-- 43_control.md section 2 (R164, which the spec derives): a stream whose CRC was saved resumes from any later state `u`: SELECT
of the same code, or CONFIG of the same staged spec, then the CRC write, then the remaining bytes and FINAL, give the CRC
and RESULT of the stream that was never interrupted. -/
def Obligations.SavedStreamsResume : Prop :=
  ∀ (s u : State) (e e' : Engine) (bs : List Byte) (c : Instr), BlockInv s → s.act.cfgv = true → BlockInv u →
    ((c = .select s.act.sel ∧ s.act.sel ≠ 0xFF) ∨ (c = .config ∧ u.stg = s.act.toSpec)) →
    s.pending = updMany e bs ++ [issueCommand .final] →
    u.pending = issueCommand c :: restore s.crc ++ updMany e' bs ++ [issueCommand .final] →
    ∃ t v, run (bs.length + 1) s = .next t ∧ run (bs.length + 3) u = .next v ∧
      v.crc = t.crc ∧ v.result = t.result ∧ t.crc = foldBytes s.act.toSpec s.crc bs

/-! ## Listings -/

/-- 30_encoding.md section 4 (R76) and 40_configuration.md section 1 (R102): the rule's example lines, a catalog name and two
codes as SELECT operands, a write and a read; a name that is not in the catalog is an error. What the rule leaves open of the text is the model's choice (log 14). -/
def Obligations.ListingLinesAssemble : Prop :=
  assembleLine "UPDN 0x3E" = some [.write 0x00 4 0x00003E06] ∧
  assembleLine "UPDB 62 ; a byte" = some [.write 0x00 4 0x00003E04] ∧
  assembleLine "SELECT CRC32" = some [.write 0x00 4 0x00000601] ∧
  assembleLine "SELECT 6" = some [.write 0x00 4 0x00000601] ∧
  assembleLine "SELECT 0x09" = some [.write 0x00 4 0x00000901] ∧
  assembleLine "SELECT CRC32-MPEG" = none ∧
  assembleLine "WR CMD, 0x19" = some [.write 0x00 4 0x00000019] ∧
  assembleLine "RD RESULT" = some [.read 0x0C 4]
end

