-- ==== Sys2Proof/Laws/Encoding.lean ====
section
/-! SUPPORT. The fields of a command word and of an encoded instruction (30_encoding.md R70, R72). -/

namespace Sys2Proof

/-- A word is its four fields. -/
theorem word_eq_of_fields {c d : Word} (h0 : opField c = opField d) (h1 : res0Field c = res0Field d)
    (h2 : argField c = argField d) (h3 : res1Field c = res1Field d) : c = d := by
  have e0 := congrArg BitVec.toNat h0
  have e1 := congrArg BitVec.toNat h1
  have e2 := congrArg BitVec.toNat h2
  have e3 := congrArg BitVec.toNat h3
  simp only [opField, res0Field, argField, res1Field, BitVec.extractLsb'_toNat, Nat.shiftRight_eq_div_pow] at e0 e1 e2 e3
  apply BitVec.eq_of_toNat_eq
  have := c.isLt
  have := d.isLt
  omega

@[simp] theorem opField_encode (i : Instr) : opField (encode i) = i.opcode := by
  cases i <;> simp only [encode, Instr.opcode, Instr.arg, opField] <;> first | decide | (rename_i b; revert b; decide)

@[simp] theorem argField_encode (i : Instr) : argField (encode i) = i.arg := by
  cases i <;> simp only [encode, Instr.opcode, Instr.arg, argField] <;> first | decide | (rename_i b; revert b; decide)

@[simp] theorem res0Field_encode (i : Instr) : res0Field (encode i) = 0 := by
  cases i <;> simp only [encode, Instr.opcode, Instr.arg, res0Field] <;> first | decide | (rename_i b; revert b; decide)

@[simp] theorem res1Field_encode (i : Instr) : res1Field (encode i) = 0 := by
  cases i <;> simp only [encode, Instr.opcode, Instr.arg, res1Field] <;> first | decide | (rename_i b; revert b; decide)

/-- What the dispatch of a defined opcode gives. -/
theorem dispatchOp_eq_some {op : BitVec 4} {a : Byte} {i : Instr} (h : dispatchOp op a = some i) :
    i.opcode = op ∧ (i.arg = a ∨ (takesNoArg op = true ∧ i.arg = 0)) := by
  revert h
  have : ∀ op : BitVec 4, dispatchOp op a = some i → i.opcode = op ∧ (i.arg = a ∨ (takesNoArg op = true ∧ i.arg = 0)) := by
    intro op
    have hop : op.toNat < 16 := op.isLt
    obtain ⟨n, hn⟩ : ∃ n, op = BitVec.ofNat 4 n ∧ n < 16 := ⟨op.toNat, by simp, hop⟩
    obtain ⟨rfl, hn⟩ := hn
    interval_cases n <;> intro h <;>
      first
        | (obtain rfl : _ = i := Option.some.inj h; simp [Instr.opcode, Instr.arg, takesNoArg])
        | exact absurd h (by simp [dispatchOp])
  exact this op

end Sys2Proof
end

