-- ==== Sys2Proof/Laws/State.lean ====
section
/-! SUPPORT. One lemma per field for each operation that updates the state, so that no later proof unfolds one. -/

namespace Sys2Proof.Machine

section RaiseError

variable (e : ErrorKind) (c : Word) (s : State)

@[simp] theorem raiseError_crc : (raiseError e c s).crc = s.crc := by unfold raiseError; split <;> rfl
@[simp] theorem raiseError_result : (raiseError e c s).result = s.result := by unfold raiseError; split <;> rfl
@[simp] theorem raiseError_act : (raiseError e c s).act = s.act := by unfold raiseError; split <;> rfl
@[simp] theorem raiseError_stg : (raiseError e c s).stg = s.stg := by unfold raiseError; split <;> rfl
@[simp] theorem raiseError_table : (raiseError e c s).table = s.table := by unfold raiseError; split <;> rfl
@[simp] theorem raiseError_catalog : (raiseError e c s).catalog = s.catalog := by unfold raiseError; split <;> rfl
@[simp] theorem raiseError_pending : (raiseError e c s).pending = s.pending := by unfold raiseError; split <;> rfl
@[simp] theorem raiseError_reply : (raiseError e c s).reply = s.reply := by unfold raiseError; split <;> rfl

theorem raiseError_of_clear (h : s.err = 0) : raiseError e c s = { s with err := e.code, errcmd := c } := if_pos h

theorem raiseError_of_recorded (h : s.err ≠ 0) : raiseError e c s = { s with eovf := true } := if_neg h

end RaiseError

section ClearErrors

variable (s : State)

@[simp] theorem clearErrors_crc : (clearErrors s).crc = s.crc := rfl
@[simp] theorem clearErrors_result : (clearErrors s).result = s.result := rfl
@[simp] theorem clearErrors_act : (clearErrors s).act = s.act := rfl
@[simp] theorem clearErrors_stg : (clearErrors s).stg = s.stg := rfl
@[simp] theorem clearErrors_err : (clearErrors s).err = 0 := rfl
@[simp] theorem clearErrors_eovf : (clearErrors s).eovf = false := rfl
@[simp] theorem clearErrors_errcmd : (clearErrors s).errcmd = 0 := rfl
@[simp] theorem clearErrors_table : (clearErrors s).table = s.table := rfl
@[simp] theorem clearErrors_catalog : (clearErrors s).catalog = s.catalog := rfl
@[simp] theorem clearErrors_pending : (clearErrors s).pending = s.pending := rfl
@[simp] theorem clearErrors_reply : (clearErrors s).reply = s.reply := rfl

end ClearErrors

section LoadSpec

variable (sp : Spec) (k : Byte) (s : State)

@[simp] theorem loadSpec_crc : (loadSpec sp k s).crc = sp.init := rfl
@[simp] theorem loadSpec_result : (loadSpec sp k s).result = s.result := rfl
@[simp] theorem loadSpec_act : (loadSpec sp k s).act = { toSpec := sp, cfgv := true, sel := k } := rfl
@[simp] theorem loadSpec_stg : (loadSpec sp k s).stg = s.stg := rfl
@[simp] theorem loadSpec_err : (loadSpec sp k s).err = s.err := rfl
@[simp] theorem loadSpec_eovf : (loadSpec sp k s).eovf = s.eovf := rfl
@[simp] theorem loadSpec_errcmd : (loadSpec sp k s).errcmd = s.errcmd := rfl
@[simp] theorem loadSpec_table : (loadSpec sp k s).table = tgen sp := rfl
@[simp] theorem loadSpec_catalog : (loadSpec sp k s).catalog = s.catalog := rfl
@[simp] theorem loadSpec_pending : (loadSpec sp k s).pending = s.pending := rfl
@[simp] theorem loadSpec_reply : (loadSpec sp k s).reply = s.reply := rfl

end LoadSpec

section ResetBlock

variable (s : State)

@[simp] theorem resetBlock_crc : (resetBlock s).crc = 0 := rfl
@[simp] theorem resetBlock_result : (resetBlock s).result = 0 := rfl
@[simp] theorem resetBlock_act : (resetBlock s).act = ActiveSpec.reset := rfl
@[simp] theorem resetBlock_stg :
    (resetBlock s).stg = { width := 0, reflected := false, poly := 0, init := 0, xorout := 0 } := rfl
@[simp] theorem resetBlock_err : (resetBlock s).err = 0 := rfl
@[simp] theorem resetBlock_eovf : (resetBlock s).eovf = false := rfl
@[simp] theorem resetBlock_errcmd : (resetBlock s).errcmd = 0 := rfl
@[simp] theorem resetBlock_table : (resetBlock s).table = Vector.replicate 16 0 := rfl
@[simp] theorem resetBlock_catalog : (resetBlock s).catalog = s.catalog := rfl
@[simp] theorem resetBlock_pending : (resetBlock s).pending = s.pending := rfl
@[simp] theorem resetBlock_reply : (resetBlock s).reply = .silent := rfl

end ResetBlock

section WriteRegister

variable (off : Nat) (v : Word) (s : State)

@[simp] theorem writeCrc_act : (writeCrc v s).act = s.act := by unfold writeCrc; split <;> rfl

@[simp] theorem writeRegister_result : (writeRegister off v s).result = s.result := by
  unfold writeRegister writeCrc; split <;> (try split) <;> rfl
@[simp] theorem writeRegister_act : (writeRegister off v s).act = s.act := by
  unfold writeRegister writeCrc; split <;> (try split) <;> rfl
@[simp] theorem writeRegister_err : (writeRegister off v s).err = s.err := by
  unfold writeRegister writeCrc; split <;> (try split) <;> rfl
@[simp] theorem writeRegister_eovf : (writeRegister off v s).eovf = s.eovf := by
  unfold writeRegister writeCrc; split <;> (try split) <;> rfl
@[simp] theorem writeRegister_errcmd : (writeRegister off v s).errcmd = s.errcmd := by
  unfold writeRegister writeCrc; split <;> (try split) <;> rfl
@[simp] theorem writeRegister_table : (writeRegister off v s).table = s.table := by
  unfold writeRegister writeCrc; split <;> (try split) <;> rfl
@[simp] theorem writeRegister_catalog : (writeRegister off v s).catalog = s.catalog := by
  unfold writeRegister writeCrc; split <;> (try split) <;> rfl
@[simp] theorem writeRegister_pending : (writeRegister off v s).pending = s.pending := by
  unfold writeRegister writeCrc; split <;> (try split) <;> rfl
@[simp] theorem writeRegister_reply : (writeRegister off v s).reply = s.reply := by
  unfold writeRegister writeCrc; split <;> (try split) <;> rfl

end WriteRegister

end Sys2Proof.Machine
end

