-- ==== Sys2Proof/Laws/Ops.lean ====
section
/-! SUPPORT. What each shared operation can do, said once: a command's outcome, and the cases of a step. -/

namespace Sys2Proof.Machine

theorem whenConfigured_of_active {c : Word} {s t : State} (h : s.act.cfgv = true) : whenConfigured c s t = .next t := by
  simp [whenConfigured, h]

theorem whenConfigured_of_inactive {c : Word} {s t : State} (h : s.act.cfgv = false) :
    whenConfigured c s t = .next (raiseError .notConfigured c s) := by simp [whenConfigured, h]

/-- A command whose own check fails records that error with its word, and nothing else. -/
theorem exec_of_ownError {i : Instr} {s : State} {e : ErrorKind} (h : ownError i s = some e) :
    exec i s = .next (raiseError e (encode i) s) := by
  cases i <;> simp only [ownError] at h
  case nop => exact absurd h (by simp)
  case clrerr => exact absurd h (by simp)
  case select k =>
    split at h
    · exact absurd h (by simp)
    · rename_i hk
      obtain rfl := Option.some.inj h
      simp [exec, execSelect, hk]
  case config =>
    split at h
    · exact absurd h (by simp)
    · rename_i hv
      obtain rfl := Option.some.inj h
      simp [exec, execConfig, hv]
  all_goals
    split at h
    · exact absurd h (by simp)
    · rename_i hc
      obtain rfl := Option.some.inj h
      simp [exec, execInit, execUpdb, execUpdr, execUpdn, execFinal, whenConfigured, hc]

/-- Every command ends in a next state (60_exceptions.md R204). -/
theorem exec_next_exists (i : Instr) (s : State) : ∃ t, exec i s = .next t := by
  cases i <;> exact ⟨_, rfl⟩

/-- The cases of an admitted or refused access, and of reset: what serving one input leaves. -/
theorem serve_cases {x : Input} {s t : State} (h : serve x s = .next t) :
    (x = .reset ∧ t = resetBlock s) ∨
    (∃ off, x = .read off 4 ∧ admitted off 4 = true ∧ t = { s with reply := .data (memRead off s) }) ∨
    (∃ off v, x = .write off 4 v ∧ admitted off 4 = true ∧ off ≠ 0 ∧ t = { writeRegister off v s with reply := .ack }) ∨
    (∃ c u, x = cmdWrite c ∧ command c s = .next u ∧ t = { u with reply := .ack }) := by
  cases x with
  | reset => exact .inl ⟨rfl, by simpa [serve] using h.symm⟩
  | read off bytes =>
    simp only [serve] at h
    split at h
    · rename_i ha
      have hb : bytes = 4 := by simp [admitted] at ha; exact ha.1.1
      subst hb
      exact .inr (.inl ⟨off, rfl, ha, by simpa using h.symm⟩)
    · simp at h
  | write off bytes v =>
    simp only [serve] at h
    split at h
    · rename_i ha
      have hb : bytes = 4 := by simp [admitted] at ha; exact ha.1.1
      subst hb
      by_cases hz : off = 0
      · subst hz
        simp only [memWrite, if_true] at h
        refine .inr (.inr (.inr ⟨v, ?_⟩))
        cases hc : command v s with
        | next u => exact ⟨u, rfl, rfl, by simpa [hc, withReply] using h.symm⟩
        | fault f => simp [hc, withReply] at h
        | refused f => simp [hc, withReply] at h
      · exact .inr (.inr (.inl ⟨off, v, rfl, ha, hz, by simpa [memWrite, hz, withReply] using h.symm⟩))
    · simp at h

/-- The cases of a step: nothing waits, or the oldest input is served on the state without it. -/
theorem step_cases {s t : State} (h : step s = .next t) :
    (s.pending = [] ∧ t = s) ∨ ∃ x rest, s.pending = x :: rest ∧ serve x { s with pending := rest } = .next t := by
  unfold step serveNext at h
  split at h
  · rename_i hp; exact .inl ⟨hp, by simpa using h.symm⟩
  · rename_i x rest hp; exact .inr ⟨x, rest, hp, h⟩

/-- A step that has an input to serve serves it. -/
theorem step_of_pending {s : State} {x : Input} {rest : List Input} (h : s.pending = x :: rest) :
    step s = serve x { s with pending := rest } := by simp [step, serveNext, h]

/-- A step that serves a CMD write runs its command. -/
theorem step_of_cmdWrite {s u : State} {c : Word} {rest : List Input} (h : s.pending = cmdWrite c :: rest)
    (hc : command c { s with pending := rest } = .next u) : step s = .next { u with reply := .ack } := by
  simp [step_of_pending h, cmdWrite, serve, admitted, memWrite, hc, withReply]

/-- A command changes neither the waiting inputs nor the last reply, the staging registers nor the catalog. -/
theorem exec_keeps {i : Instr} {s t : State} (h : exec i s = .next t) :
    t.pending = s.pending ∧ t.reply = s.reply ∧ t.stg = s.stg ∧ t.catalog = s.catalog := by
  cases i <;>
    simp only [exec, execNop, execSelect, execConfig, execInit, execUpdb, execUpdr, execUpdn, execFinal, execClrerr,
      whenConfigured, Host.Outcome.next.injEq] at h <;> subst h <;> (try split) <;> simp

theorem command_keeps {c : Word} {s t : State} (h : command c s = .next t) :
    t.pending = s.pending ∧ t.reply = s.reply ∧ t.stg = s.stg ∧ t.catalog = s.catalog := by
  unfold command at h
  split at h
  · exact exec_keeps h
  · simp only [Host.Outcome.next.injEq] at h; subst h; simp

/-- A word that decodes runs its instruction. -/
theorem command_of_decode {c : Word} {i : Instr} (h : decode c = .ok i) (s : State) : command c s = exec i s := by
  unfold command; rw [h]

/-- A word that does not decode records an IllegalCommand, and nothing else. -/
theorem command_of_illegal {c : Word} (h : ∀ i, decode c ≠ .ok i) (s : State) :
    command c s = .next (raiseError .illegalCommand c s) := by
  unfold command
  split
  · rename_i i hi; exact absurd hi (h i)
  · rfl

/-! ## Register views -/

theorem ctrlWord_toNat (sp : Spec) : sp.ctrlWord.toNat = sp.reflected.toNat * 2 ^ 8 + sp.width.toNat := by
  unfold Spec.ctrlWord
  generalize sp.width = w
  generalize sp.reflected = r
  revert w r
  decide +kernel

/-- STATUS as a number: SEL, ERR, EOVF and CFGV at their places (10_state.md R29). -/
theorem statusWord_toNat (s : State) :
    (statusWord s).toNat = s.act.sel.toNat * 2 ^ 8 + s.err.toNat * 2 ^ 4 + s.eovf.toNat * 2 + s.act.cfgv.toNat := by
  have low : ∀ (e : BitVec 4) (o c : Bool),
      (e ++ 0#2 ++ BitVec.ofBool o ++ BitVec.ofBool c : BitVec 8).toNat = e.toNat * 16 + o.toNat * 2 + c.toNat := by decide
  unfold statusWord
  generalize s.act.sel = x
  generalize s.err = e
  generalize s.eovf = o
  generalize s.act.cfgv = c
  have hlt := (e ++ 0#2 ++ BitVec.ofBool o ++ BitVec.ofBool c : BitVec 8).isLt
  have whole : (0#16 ++ x ++ e ++ 0#2 ++ BitVec.ofBool o ++ BitVec.ofBool c : BitVec 32).toNat =
      x.toNat * 2 ^ 8 + (e ++ 0#2 ++ BitVec.ofBool o ++ BitVec.ofBool c : BitVec 8).toNat := by
    have shift_or : ∀ x y k : Nat, (x ||| y) * 2 ^ k = x * 2 ^ k ||| y * 2 ^ k := fun x y k => by
      rw [← Nat.shiftLeft_eq, Nat.shiftLeft_or_distrib, Nat.shiftLeft_eq, Nat.shiftLeft_eq]
    have cut : ∀ a b c d e : Nat, ((((a * 2 ^ 4 ||| b) * 2 ^ 2 ||| c) * 2 ^ 1 ||| d) * 2 ^ 1 ||| e) =
        a * 2 ^ 8 ||| (((b * 2 ^ 2 ||| c) * 2 ^ 1 ||| d) * 2 ^ 1 ||| e) := by
      intro a b c d e
      simp only [shift_or, Nat.or_assoc]
      congr 1; ring
    have top : BitVec.toNat 0#16 * 2 ^ 8 ||| x.toNat = x.toNat := by simp
    simp only [BitVec.toNat_append, Nat.shiftLeft_eq] at hlt ⊢
    rw [top, cut, ← Nat.shiftLeft_eq]
    exact (Nat.shiftLeft_add_eq_or_of_lt (i := 8) (by simpa [Nat.shiftLeft_eq] using hlt) _).symm
  rw [whole, low]; omega

/-! ## Runs -/

@[simp] theorem run_zero (s : State) : run 0 s = .next s := rfl

/-- A run of `n + 1` steps is a step and then a run of `n`, if the step ends in a state. -/
theorem run_succ (n : Nat) (s : State) : run (n + 1) s =
    match step s with
    | .next t => run n t
    | .fault f => .fault f
    | .refused f => .refused f := by
  show Host.Core.run Sys2Proof.core (n + 1) s = _
  simp only [Host.Core.run]
  have h : Sys2Proof.core.step s = step s := rfl
  rw [h]
  cases step s <;> rfl

theorem run_succ_of_next {n : Nat} {s t : State} (h : step s = .next t) : run (n + 1) s = run n t := by
  rw [run_succ, h]

/-- A run of `m + n` steps is a run of `m` and then one of `n`. -/
theorem run_add {m n : Nat} : ∀ {s t : State}, run m s = .next t → run (m + n) s = run n t := by
  induction m with
  | zero =>
    intro s t h
    simp only [run_zero, Host.Outcome.next.injEq] at h
    rw [h, Nat.zero_add]
  | succ m ih =>
    intro s t h
    rw [run_succ] at h
    rw [Nat.succ_add, run_succ]
    split at h
    · rename_i u hu
      exact ih h
    · exact absurd h (by simp)
    · exact absurd h (by simp)

end Sys2Proof.Machine
end

