-- ==== Sys2Proof/Laws/PerInstr.lean ====
section
/-! SUPPORT. Statements made per instruction: the word of an instruction is covered by its row of the opcode map
(30_encoding.md R72). -/

namespace Sys2Proof.Laws.EncodeMatchesRow

/-- The encoded word is covered by the instruction's row of the opcode map, and by no row of another opcode. -/
def Statement (i : Instr) : Prop :=
  i.row.covers (encode i) = true ∧ ∀ r ∈ opcodeMap, r.covers (encode i) = true → r = i.row

theorem nop : Statement .nop := by unfold Statement; decide
theorem select (k : Byte) : Statement (.select k) := by unfold Statement; revert k; decide +kernel
theorem config : Statement .config := by unfold Statement; decide
theorem init : Statement .init := by unfold Statement; decide
theorem updb (b : Byte) : Statement (.updb b) := by unfold Statement; revert b; decide +kernel
theorem updr (b : Byte) : Statement (.updr b) := by unfold Statement; revert b; decide +kernel
theorem updn (b : Byte) : Statement (.updn b) := by unfold Statement; revert b; decide +kernel
theorem final : Statement .final := by unfold Statement; decide
theorem clrerr : Statement .clrerr := by unfold Statement; decide

end Sys2Proof.Laws.EncodeMatchesRow
end

