-- ==== Sys2Proof/Laws/Updates.lean ====
section
/-! SUPPORT. The update functions: `mask`, values within a width, and the single-bit steps, which keep the width and are
linear over GF(2) (41_bitwise.md R120, R121; 42_nibble.md R145). -/

namespace Sys2Proof.Machine

/-! ## Masks and widths -/

theorem mask_eq {w : Nat} (hw : w ≤ 32) : (mask w).toNat = 2 ^ w - 1 := by
  have : 2 ^ w ≤ 2 ^ 32 := Nat.pow_le_pow_right (by decide) hw
  simp only [mask, BitVec.toNat_ofNat]
  omega

@[simp] theorem getLsbD_mask (w i : Nat) : (mask w).getLsbD i = (decide (i < w) && decide (i < 32)) := by
  simp only [mask, BitVec.getLsbD_ofNat, Nat.testBit_two_pow_sub_one]
  rw [Bool.and_comm]

/-- A value fits a width when its bits from the width on are 0. -/
theorem fits_iff_getLsbD (v : Word) (w : Nat) : v.toNat < 2 ^ w ↔ ∀ i, w ≤ i → v.getLsbD i = false := by
  constructor
  · intro h i hi
    exact Nat.testBit_eq_false_of_lt (h.trans_le (Nat.pow_le_pow_right (by decide) hi))
  · intro h
    exact Nat.lt_pow_two_of_testBit v.toNat fun i hi => h i hi

/-- A value fits a width when masking out the width leaves nothing (10_state.md R22). -/
theorem fits_iff_and_not_mask {v : Word} {w : Nat} : v &&& ~~~ mask w = 0 ↔ v.toNat < 2 ^ w := by
  have bit : ∀ i, (v &&& ~~~ mask w).getLsbD i = (v.getLsbD i && decide (w ≤ i)) := by
    intro i
    by_cases hi : i < 32
    · rw [BitVec.getLsbD_and, BitVec.getLsbD_not, getLsbD_mask]
      by_cases hw : i < w
      · simp [hi, hw]
      · simp [hi, hw, Nat.not_lt.mp hw]
    · rw [BitVec.getLsbD_of_ge _ i (by omega), BitVec.getLsbD_of_ge v i (by omega)]; rfl
  rw [fits_iff_getLsbD]
  constructor
  · intro h i hi
    simpa [h, hi] using (bit i).symm
  · intro h
    apply BitVec.eq_of_getLsbD_eq
    intro i _
    rw [bit i]
    by_cases hw : w ≤ i
    · rw [h i hw]; simp
    · simp [hw]

theorem and_mask_fits (v : Word) (w : Nat) : (v &&& mask w).toNat < 2 ^ w := by
  rw [fits_iff_getLsbD]
  intro i hi
  simp [Nat.not_lt.mpr hi]

theorem and_mask_of_fits {v : Word} {w : Nat} (h : v.toNat < 2 ^ w) : v &&& mask w = v := by
  rw [fits_iff_getLsbD] at h
  ext i hi
  have hi' : v[i] = v.getLsbD i := (BitVec.getLsbD_eq_getElem hi).symm
  have hm : (mask w)[i] = decide (i < w) := by rw [← BitVec.getLsbD_eq_getElem hi, getLsbD_mask]; simp [hi]
  rw [BitVec.getElem_and, hm, hi']
  by_cases hw : i < w
  · simp [hw]
  · simp [hw, h i (by omega)]

theorem xor_fits {a b : Word} {w : Nat} (ha : a.toNat < 2 ^ w) (hb : b.toNat < 2 ^ w) : (a ^^^ b).toNat < 2 ^ w := by
  simpa using Nat.xor_lt_two_pow ha hb

/-! ## Single-bit steps -/

theorem stepR_fits {s p : Word} {w : Nat} (hs : s.toNat < 2 ^ w) (hp : p.toNat < 2 ^ w) : (stepR s p w).toNat < 2 ^ w := by
  have h : (s >>> 1).toNat < 2 ^ w := by
    simp only [BitVec.toNat_ushiftRight, Nat.shiftRight_eq_div_pow]; omega
  unfold stepR
  split
  · exact xor_fits h hp
  · exact h

theorem stepN_fits {s p : Word} {w : Nat} (hp : p.toNat < 2 ^ w) : (stepN s p w).toNat < 2 ^ w := by
  unfold stepN
  split
  · exact xor_fits (and_mask_fits _ _) hp
  · exact and_mask_fits _ _

theorem bitStep_fits {sp : Spec} {s : Word} (hs : s.toNat < 2 ^ sp.bits) (hp : sp.poly.toNat < 2 ^ sp.bits) :
    (sp.bitStep s).toNat < 2 ^ sp.bits := by
  unfold Spec.bitStep
  split
  · exact stepR_fits hs hp
  · exact stepN_fits hp

theorem bitSteps_fits {sp : Spec} (hp : sp.poly.toNat < 2 ^ sp.bits) :
    ∀ (n : Nat) {s : Word}, s.toNat < 2 ^ sp.bits → (sp.bitSteps n s).toNat < 2 ^ sp.bits
  | 0, _, hs => hs
  | n + 1, _, hs => bitSteps_fits hp n (bitStep_fits hs hp)

theorem xor_xor_cancel (a b p : Word) : a ^^^ b = (a ^^^ p) ^^^ (b ^^^ p) := by
  rw [BitVec.xor_assoc, BitVec.xor_comm b p, ← BitVec.xor_assoc p p b, BitVec.xor_self, BitVec.zero_xor]

theorem xor_xor_swap (a b p : Word) : (a ^^^ b) ^^^ p = (a ^^^ p) ^^^ b := by
  rw [BitVec.xor_assoc, BitVec.xor_assoc, BitVec.xor_comm b p]

theorem stepR_xor (a b p : Word) (w : Nat) : stepR (a ^^^ b) p w = stepR a p w ^^^ stepR b p w := by
  have h : (a ^^^ b) >>> 1 = (a >>> 1) ^^^ (b >>> 1) := BitVec.ushiftRight_xor_distrib a b 1
  unfold stepR
  rw [BitVec.getLsbD_xor, h]
  cases a.getLsbD 0 <;> cases b.getLsbD 0
  · rfl
  · exact BitVec.xor_assoc ..
  · exact xor_xor_swap ..
  · exact xor_xor_cancel ..

theorem stepN_xor (a b p : Word) (w : Nat) : stepN (a ^^^ b) p w = stepN a p w ^^^ stepN b p w := by
  have h : ((a ^^^ b) <<< 1) &&& mask w = ((a <<< 1) &&& mask w) ^^^ ((b <<< 1) &&& mask w) := by
    rw [BitVec.shiftLeft_xor_distrib]
    ext i hi
    simp only [BitVec.getElem_and, BitVec.getElem_xor]
    cases (a <<< 1)[i] <;> cases (b <<< 1)[i] <;> simp
  unfold stepN
  rw [BitVec.getLsbD_xor, h]
  cases a.getLsbD (w - 1) <;> cases b.getLsbD (w - 1)
  · rfl
  · exact BitVec.xor_assoc ..
  · exact xor_xor_swap ..
  · exact xor_xor_cancel ..

theorem bitStep_xor (sp : Spec) (a b : Word) : sp.bitStep (a ^^^ b) = sp.bitStep a ^^^ sp.bitStep b := by
  unfold Spec.bitStep
  split
  · exact stepR_xor ..
  · exact stepN_xor ..

theorem bitSteps_xor (sp : Spec) : ∀ (n : Nat) (a b : Word), sp.bitSteps n (a ^^^ b) = sp.bitSteps n a ^^^ sp.bitSteps n b
  | 0, _, _ => rfl
  | n + 1, a, b => by rw [Spec.bitSteps, bitStep_xor, bitSteps_xor sp n]; rfl

theorem bitSteps_add (sp : Spec) : ∀ (m n : Nat) (s : Word), sp.bitSteps (m + n) s = sp.bitSteps n (sp.bitSteps m s)
  | 0, n, s => by rw [Nat.zero_add]; rfl
  | m + 1, n, s => by rw [Nat.succ_add]; exact bitSteps_add sp m n (sp.bitStep s)

/-- A byte update is two rounds of four single-bit steps. -/
theorem bitUpdate_eq (sp : Spec) (s : Word) (b : Byte) :
    bitUpdate sp s b = sp.bitSteps 4 (sp.bitSteps 4 (s ^^^ sp.placeByte b)) := bitSteps_add sp 4 4 _

theorem placeByte_xor (sp : Spec) (a b : Byte) : sp.placeByte (a ^^^ b) = sp.placeByte a ^^^ sp.placeByte b := by
  unfold Spec.placeByte byteHigh byteLow
  split
  · exact BitVec.setWidth_xor
  · rw [BitVec.setWidth_xor, BitVec.shiftLeft_xor_distrib]

/-- Reflected steps on a value whose low bits are 0 only shift. -/
theorem bitStep_reflected_shift {sp : Spec} (hr : sp.reflected = true) {s : Word} (h : s.getLsbD 0 = false) :
    sp.bitStep s = s >>> 1 := by rw [Spec.bitStep, if_pos hr, stepR, h]; rfl

/-- A non-reflected step on a value whose top bit is 0 only shifts. -/
theorem bitStep_normal_shift {sp : Spec} (hr : sp.reflected = false) {s : Word} (h : s.getLsbD (sp.bits - 1) = false) :
    sp.bitStep s = (s <<< 1) &&& mask sp.bits := by rw [Spec.bitStep, if_neg (by simp [hr]), stepN, h]; rfl

/-! ## Shifts within a width -/

theorem and_mask_toNat (s : Word) {w : Nat} (hw : w ≤ 32) : (s &&& mask w).toNat = s.toNat % 2 ^ w := by
  rw [BitVec.toNat_and, mask_eq hw, Nat.and_two_pow_sub_one_eq_mod]

theorem shiftLeft_and_mask_toNat (s : Word) (k : Nat) {w : Nat} (hw : w ≤ 32) :
    ((s <<< k) &&& mask w).toNat = s.toNat * 2 ^ k % 2 ^ w := by
  rw [and_mask_toNat _ hw, BitVec.toNat_shiftLeft, Nat.shiftLeft_eq]
  exact Nat.mod_mod_of_dvd _ (Nat.pow_dvd_pow 2 hw)

theorem getLsbD_shiftLeft_one_and_mask (s : Word) {w : Nat} (i : Nat) (hw : w ≤ 32) :
    ((s <<< 1) &&& mask w).getLsbD i = (decide (1 ≤ i) && decide (i < w) && s.getLsbD (i - 1)) := by
  rw [BitVec.getLsbD_and, getLsbD_mask, BitVec.getLsbD_shiftLeft]
  by_cases h : i < w
  · by_cases h1 : i < 1
    · simp [h1]
    · have : i < 32 := by omega
      have h2 : 1 ≤ i := by omega
      simp [h, h1, this, h2]
  · simp [h]

/-- Reflected steps on a value whose low `n` bits are 0 only shift. -/
theorem bitSteps_reflected_shift {sp : Spec} (hr : sp.reflected = true) :
    ∀ (n : Nat) (s : Word), (∀ i, i < n → s.getLsbD i = false) → sp.bitSteps n s = s >>> n
  | 0, s, _ => by simp [Spec.bitSteps]
  | n + 1, s, h => by
    rw [Spec.bitSteps, bitStep_reflected_shift hr (h 0 (by omega)), bitSteps_reflected_shift hr n]
    · rw [← BitVec.shiftRight_add]; congr 1; omega
    · intro i hi; rw [BitVec.getLsbD_ushiftRight]; exact h _ (by omega)

/-- Non-reflected steps on a value of the width whose top `n` bits are 0 only shift. -/
theorem bitSteps_normal_shift {sp : Spec} (hr : sp.reflected = false) (hw : sp.bits ≤ 32) :
    ∀ (n : Nat) (s : Word), n ≤ sp.bits → s.toNat < 2 ^ sp.bits → (∀ i, sp.bits - n ≤ i → s.getLsbD i = false) →
      sp.bitSteps n s = (s <<< n) &&& mask sp.bits
  | 0, s, _, hs, _ => by rw [Spec.bitSteps, BitVec.shiftLeft_zero, and_mask_of_fits hs]
  | n + 1, s, hn, hs, h => by
    rw [Spec.bitSteps, bitStep_normal_shift hr (h _ (by omega)),
      bitSteps_normal_shift hr hw n _ (by omega) (and_mask_fits _ _)]
    · apply BitVec.eq_of_toNat_eq
      rw [shiftLeft_and_mask_toNat _ _ hw, shiftLeft_and_mask_toNat _ _ hw, shiftLeft_and_mask_toNat _ _ hw,
        Nat.mod_mul_mod]
      congr 1; ring
    · intro i hi
      rw [getLsbD_shiftLeft_one_and_mask _ _ hw, h (i - 1) (by omega)]; simp

@[simp] theorem bitStep_zero (sp : Spec) : sp.bitStep 0 = 0 := by simpa using bitStep_xor sp 0 0

@[simp] theorem bitSteps_zero (sp : Spec) : ∀ n, sp.bitSteps n 0 = 0
  | 0 => rfl
  | n + 1 => by rw [Spec.bitSteps, bitStep_zero, bitSteps_zero sp n]

@[simp] theorem tgen_get (sp : Spec) (i : Fin 16) : (tgen sp).get i = tgenEntry sp i.val := by
  simp [tgen, Vector.get_eq_getElem]

/-! ## Valid specs -/

theorem Spec.valid_iff (sp : Spec) : sp.valid = true ↔
    (sp.bits = 8 ∨ sp.bits = 16 ∨ sp.bits = 32) ∧ sp.poly.toNat < 2 ^ sp.bits ∧ sp.init.toNat < 2 ^ sp.bits ∧
      sp.xorout.toNat < 2 ^ sp.bits := by
  simp [Spec.valid, fits, or_assoc, and_assoc]

/-- The data byte enters within the width of a valid spec. -/
theorem placeByte_fits {sp : Spec} (h : sp.valid = true) (b : Byte) : (sp.placeByte b).toNat < 2 ^ sp.bits := by
  have hb := b.isLt
  have hw := (sp.valid_iff.mp h).1
  unfold Spec.placeByte byteHigh byteLow
  split
  · rcases hw with hw | hw | hw <;> simp [hw] <;> omega
  · rcases hw with hw | hw | hw <;>
      simp [hw, BitVec.toNat_shiftLeft, Nat.shiftLeft_eq] <;> omega

theorem bitUpdate_fits {sp : Spec} (h : sp.valid = true) {s : Word} (hs : s.toNat < 2 ^ sp.bits) (b : Byte) :
    (bitUpdate sp s b).toNat < 2 ^ sp.bits :=
  bitSteps_fits (sp.valid_iff.mp h).2.1 8 (xor_fits hs (placeByte_fits h b))

/-- Every catalog entry is a valid spec (40_configuration.md R100). -/
theorem catalogRom_valid (k : Fin 8) : (catalogRom[k]).valid = true := by revert k; decide

end Sys2Proof.Machine
end

