-- ==== Sys2Proof/Tests/Slice0.lean ====
section
/-! SUPPORT. Tests of the model: words written out from 30_encoding.md R72, ill-formed words and accesses, one step per command
with values of 95_test_vectors.md, and for each statement with hypotheses a concrete state that meets them. -/

namespace Sys2Proof.Tests

-- One theorem after another: elaborated side by side, the kernel evaluations below take a stack each, and together more
-- memory than the check allows.
set_option Elab.async false

open Sys2Proof.Machine

/-! ## Small states -/

/-- The block with catalog entry `k` active. -/
def selected (k : Fin 8) : State := loadSpec catalogRom[k] (BitVec.ofNat 8 k.val) State.reset

/-- The block with a custom spec active, staged before. -/
def custom (sp : Spec) : State := { loadSpec sp 0xFF State.reset with stg := sp }

/-- A state with CRC set, as by a host write. -/
def withCrc (s : State) (v : Word) : State := { s with crc := v }

/-- A state with an error recorded. -/
def withError (s : State) (e : BitVec 4) (c : Word) : State := { s with err := e, errcmd := c }

/-- A custom spec. -/
def specOf (w : Byte) (r : Bool) (p i x : Word) : Spec := { width := w, reflected := r, poly := p, init := i, xorout := x }

/-- A staged spec, with none active. -/
def staged (sp : Spec) : State := { State.reset with stg := sp }

/-- The state an outcome ends in. -/
def after (s : State) (o : Host.Outcome State Fault Refusal) : State :=
  match o with
  | .next t => t
  | .fault _ => s
  | .refused _ => s

/-- The test `o = .next t` as a Bool, so that `decide` can run it. -/
def isNext (o : Host.Outcome State Fault Refusal) (t : State) : Bool :=
  match o with
  | .next u => decide (u = t)
  | .fault _ => false
  | .refused _ => false

theorem next_iff {o : Host.Outcome State Fault Refusal} {t : State} : o = .next t ↔ isNext o t = true := by
  cases o <;> simp [isNext]

/-! ## Decoding: words from the encoding column (30_encoding.md R72) -/

theorem test_decode_nop : decode 0b0000000000000000_00000000_0000_0000 = .ok .nop := by decide
theorem test_decode_select : decode 0b0000000000000000_10000001_0000_0001 = .ok (.select 0x81) := by decide
theorem test_decode_config : decode 0b0000000000000000_00000000_0000_0010 = .ok .config := by decide
theorem test_decode_init : decode 0b0000000000000000_00000000_0000_0011 = .ok .init := by decide
theorem test_decode_updb : decode 0b0000000000000000_10100101_0000_0100 = .ok (.updb 0xA5) := by decide
theorem test_decode_updr : decode 0b0000000000000000_11111111_0000_0101 = .ok (.updr 0xFF) := by decide
theorem test_decode_updn : decode 0b0000000000000000_00111110_0000_0110 = .ok (.updn 0x3E) := by decide
theorem test_decode_final : decode 0b0000000000000000_00000000_0000_0111 = .ok .final := by decide
theorem test_decode_clrerr : decode 0b0000000000000000_00000000_0000_1000 = .ok .clrerr := by decide

theorem test_encode : encode (.updn 0x3E) = 0x00003E06 ∧ encode (.select 0x09) = 0x00000901 ∧ encode .clrerr = 0x00000008 := by
  decide

theorem test_decodeTableWord : decodeTableWord 32 0x00003E06 = some (.updn 0x3E) ∧ decodeTableWord 32 0x00000009 = none ∧
    decodeTableWord 40 0x100000000 = none := by decide

/-! ## Ill-formed words and accesses -/

theorem test_ill_reserved_opcode : wordWellFormed 0x00000009 = false ∧ decode 0x00000009 = .error .reservedOpcode ∧
    wordWellFormed 0x0000000F = false ∧ decode 0x0000000F = .error .reservedOpcode := by decide
theorem test_ill_res0 : wordWellFormed 0x00000020 = false ∧ decode 0x00000020 = .error .reservedField ∧
    wordWellFormed 0x00000011 = false ∧ decode 0x00000011 = .error .reservedField := by decide
theorem test_ill_res1 : wordWellFormed 0x80000004 = false ∧ decode 0x80000004 = .error .reservedField ∧
    wordWellFormed 0x00010001 = false ∧ decode 0x00010001 = .error .reservedField := by decide
theorem test_ill_arg : wordWellFormed 0x00000100 = false ∧ decode 0x00000100 = .error .argNotZero ∧
    wordWellFormed 0x00000108 = false ∧ decode 0x00000108 = .error .argNotZero := by decide
theorem test_well_formed_arg : wordWellFormed 0x0000FF01 = true ∧ wordWellFormed 0x00000006 = true := by decide

/-- 95_test_vectors.md section 2.8: a byte read at 0x08, a halfword write at 0x00, a word read at 0x02, an access at 0x80. -/
theorem test_access_refused : serve (.read 0x08 1) State.reset = .refused .accessNotAdmitted ∧
    serve (.write 0x00 2 0) State.reset = .refused .accessNotAdmitted ∧
    serve (.read 0x02 4) State.reset = .refused .accessNotAdmitted ∧
    serve (.write 0x80 4 0) State.reset = .refused .accessNotAdmitted := ⟨rfl, rfl, rfl, rfl⟩

/-! ## One step of each command (95_test_vectors.md sections 2.1 to 2.7) -/

theorem test_nop : command 0x00000000 State.reset = .next State.reset := rfl
theorem test_nop_with_arg : statusWord (after State.reset (command 0x00000100 State.reset)) = 0x0000FF40 := by decide

theorem test_select_crc32 : let t := after State.reset (command 0x00000601 State.reset)
    statusWord t = 0x00000601 ∧ memRead 0x2C t = 0x00000120 ∧ t.crc = 0xFFFFFFFF ∧ memRead 0x44 t = 0x1DB71064 := by
  decide +kernel
theorem test_select_unknown : let t := after State.reset (command 0x00000801 (withCrc (selected 4) 0xF1D1))
    statusWord t = 0x00000421 ∧ t.errcmd = 0x00000801 ∧ t.crc = 0xF1D1 := by decide +kernel

theorem test_config_valid :
    let t := after State.reset (command 0x00000002 (staged (specOf 16 false 0x0000 0xBEEF 0x0000)))
    statusWord t = 0x0000FF01 ∧ memRead 0x2C t = 0x00000010 ∧ t.crc = 0xBEEF := by decide +kernel
theorem test_config_poly_too_wide :
    let t := after State.reset (command 0x00000002 (staged (specOf 8 false 0x100 0 0)))
    statusWord t = 0x0000FF10 ∧ t.errcmd = 0x00000002 := by decide

theorem test_init : (after State.reset (command 0x00000003 (withCrc (selected 6) 0x1234))).crc = 0xFFFFFFFF := by decide +kernel
theorem test_init_unconfigured : let t := after State.reset (command 0x00000003 State.reset)
    statusWord t = 0x0000FF30 ∧ t.errcmd = 0x00000003 := by decide

theorem test_updb_reflected : (after State.reset (command 0x00000104 (selected 6))).crc = 0x5AFA20E4 := by decide +kernel
theorem test_updb_msb_first :
    (after State.reset (command 0x00000004 (withCrc (selected 7) 0x80000000))).crc = 0x690CE0EE := by decide +kernel

theorem test_updr_reflected : (after State.reset (command 0x00008005 (withCrc (selected 3) 0))).crc = 0xA001 := by
  decide +kernel
theorem test_updr_msb_first : (after State.reset (command 0x00000105 (selected 1))).crc = 0x6D := by decide +kernel

theorem test_updn_reflected : (after State.reset (command 0x00000106 (selected 6))).crc = 0x5AFA20E4 := by decide +kernel
theorem test_updn_msb_first : (after State.reset (command 0x00000106 (selected 4))).crc = 0xF1D1 := by decide +kernel

theorem test_final : let t := after State.reset (command 0x00000007 (withCrc (selected 6) 0x803893D0))
    t.result = 0x7FC76C2F ∧ t.crc = 0x803893D0 := by decide +kernel
theorem test_final_unconfigured : let t := after State.reset (command 0x00000007 State.reset)
    statusWord t = 0x0000FF30 ∧ t.errcmd = 0x00000007 ∧ t.result = 0 := by decide

theorem test_clrerr : let t := after State.reset (command 0x00000008 { withError State.reset 3 0x4 with eovf := true })
    statusWord t = 0x0000FF00 ∧ t.errcmd = 0 := by decide
theorem test_clrerr_ill_formed : let t := after State.reset (command 0x00000108 (withError State.reset 3 0x4))
    statusWord t = 0x0000FF32 ∧ t.errcmd = 0x00000004 := by decide

/-! ## Tables, window and listings -/

/-- The tables of CRC8-AUTOSAR and CRC32 (95_test_vectors.md section 2.3). -/
theorem test_tables : (tgen catalogRom[1]).toList =
      [0x00, 0x2F, 0x5E, 0x71, 0xBC, 0x93, 0xE2, 0xCD, 0x57, 0x78, 0x09, 0x26, 0xEB, 0xC4, 0xB5, 0x9A] ∧
    (tgen catalogRom[6]).toList =
      [0x00000000, 0x1DB71064, 0x3B6E20C8, 0x26D930AC, 0x76DC4190, 0x6B6B51F4, 0x4DB26158, 0x5005713C, 0xEDB88320,
        0xF00F9344, 0xD6D6A3E8, 0xCB61B38C, 0x9B64C2B0, 0x86D3D2D4, 0xA00AE278, 0xBDBDF21C] := by decide +kernel

/-- Reset values (10_state.md R36) and a read of a reserved offset and of CMD. -/
theorem test_reset_reads : memRead 0x04 State.reset = 0x0000FF00 ∧ memRead 0x34 State.reset = 0 ∧
    memRead 0x00 (selected 6) = 0 ∧ memRead 0x7C State.reset = 0 := by decide +kernel

/-- A CRC write is masked to the width, and ignored without a spec (95_test_vectors.md section 2.8). -/
theorem test_crc_write : (writeRegister 0x08 0x12345678 (selected 1)).crc = 0x78 ∧
    (writeRegister 0x08 0x1234 State.reset).crc = 0 ∧ writeRegister 0x44 0 (selected 6) = selected 6 := by decide +kernel

/-- Staging: bits [31:9] of STG_CTRL are ignored, and ACT keeps its spec (95_test_vectors.md sections 2.2, 2.8). -/
theorem test_staging_write : memRead 0x1C (writeRegister 0x1C 0xFFFFFE20 State.reset) = 0x20 ∧
    memRead 0x20 (writeRegister 0x10 0x8005 (selected 4)) = 0x1021 := by decide +kernel

theorem test_listing : assembleLine "COMPUTE.N 1, 0x32" =
      some [.write 0 4 0x3, .write 0 4 0x106, .write 0 4 0x3206, .write 0 4 0x7] ∧
    assembleLine "RD TABLE[1]" = some [.read 0x44 4] ∧ assembleLine "" = some [] ∧ assembleLine "UPDB 256" = none := by
  decide +kernel

/-- Every catalog name is the SELECT of its code (40_configuration.md R100), a hexadecimal digit has either case, and a
character that is no digit of the base is an error. -/
theorem test_listing_names : (∀ k : Fin 8, assembleLine ("SELECT " ++ catalogNames[k.val]'k.isLt) =
      some [issueCommand (.select (BitVec.ofNat 8 k.val))]) ∧
    assembleLine "UPDR 0xfE" = some [.write 0 4 0xFE05] ∧ assembleLine "UPDR 0xG" = none ∧ assembleLine "UPDR 1A" = none := by
  decide +kernel

/-! ## Witnesses: for each statement with hypotheses, values that meet them -/

/-- The block with catalog entry `k` active and inputs waiting. -/
def waiting (k : Fin 8) (xs : List Input) : State := { selected k with pending := xs }

theorem inv_waiting (k : Fin 8) (xs : List Input) : BlockInv (waiting k xs) := by
  have act : ∀ k : Fin 8, (catalogRom[k]).valid = true ∧ (BitVec.ofNat 8 k.val = 0xFF ∨
      ∃ h : (BitVec.ofNat 8 k.val).toNat < 8, catalogRom[k] = catalogRom[(BitVec.ofNat 8 k.val).toNat]) := by decide
  have crc : ∀ k : Fin 8, (catalogRom[k]).init &&& ~~~ mask (catalogRom[k]).bits = 0 := by decide
  exact ⟨rfl, ⟨fun _ => act k, fun h => Bool.noConfusion h⟩, fun _ => crc k, ⟨fun _ => rfl, fun h => Bool.noConfusion h⟩,
    by show 0 ≤ 4; decide, fun _ => ⟨rfl, rfl⟩⟩

theorem inv_custom {sp : Spec} (h : sp.valid = true) (hf : sp.init &&& ~~~ mask sp.bits = 0) (xs : List Input) :
    BlockInv { custom sp with pending := xs } :=
  ⟨rfl, ⟨fun _ => ⟨h, .inl rfl⟩, fun h => Bool.noConfusion h⟩, fun _ => hf, ⟨fun _ => rfl, fun h => Bool.noConfusion h⟩,
    by show 0 ≤ 4; decide, fun _ => ⟨rfl, rfl⟩⟩

theorem inv_reset (xs : List Input) : BlockInv { State.reset with pending := xs } :=
  ⟨rfl, ⟨fun h => Bool.noConfusion h, fun _ => rfl⟩, fun h => Bool.noConfusion h,
    ⟨fun h => Bool.noConfusion h, fun _ => rfl⟩, by show 0 ≤ 4; decide, fun _ => ⟨rfl, rfl⟩⟩

/-- Polynomial 0 in 16 bits, with the other values at the top of the width. -/
def polyZero : Spec := specOf 16 false 0 0xFFFF 0xFFFF

theorem inv_polyZero : BlockInv (custom polyZero) := inv_custom (sp := polyZero) (by decide) (by decide) []

theorem witness_DecodeAndEncodeAgree : decode 0x0000FF01 = .ok (.select 0xFF) ∧ decode 0x00000008 = .ok .clrerr := by decide

/-- Each way a word is illegal, at its boundary, and the last legal opcode. -/
theorem witness_EveryWordSelectsOneRowOrIsIllegal : Reference.bits 0x9 3 0 ≥ 0x9 ∧ Reference.bits 0x10 7 4 ≠ 0 ∧
    Reference.bits 0x80000000 31 16 ≠ 0 ∧ (Reference.bits 0x108 3 0 ∈ [0x0, 0x2, 0x3, 0x7, 0x8] ∧ Reference.bits 0x108 15 8 ≠ 0) ∧
    ¬ (Reference.bits 0x8 3 0 ≥ 0x9 ∨ Reference.bits 0x8 7 4 ≠ 0 ∨ Reference.bits 0x8 31 16 ≠ 0 ∨
      (Reference.bits 0x8 3 0 ∈ [0x0, 0x2, 0x3, 0x7, 0x8] ∧ Reference.bits 0x8 15 8 ≠ 0)) := by decide

theorem witness_CmdWriteStepRunsTheDecodedCommand :
    { State.reset with pending := [.write 0x00 4 0x401, .read 0x08 4] }.pending = .write 0x00 4 0x401 :: [.read 0x08 4] ∧
    decode 0x00000401 = .ok (.select 4) ∧
    exec (.select 4) { State.reset with pending := [.read 0x08 4] } = .next (waiting 4 [.read 0x08 4]) ∧
    (∀ i, decode 0x00000109 ≠ .ok i) ∧
    { State.reset with pending := [.read 0x00 4, .read 0x08 4] }.pending = .read 0x00 4 :: [.read 0x08 4] :=
  ⟨rfl, by decide, by simp only [next_iff]; decide +kernel,
    fun i h => absurd ((show decode 0x00000109 = .error .reservedOpcode by decide).symm.trans h) (by simp), rfl⟩

theorem witness_WithFetchWordRunsTheWord : decodeTableWord 32 0x00000401 = some (.select 4) ∧
    exec (.select 4) State.reset = .next (selected 4) := by
  simp only [next_iff]; decide +kernel

theorem witness_NopWritesNothing : Reference.bits 0 3 0 = 0x0 ∧ Reference.bits 0xFFFFFFF0 3 0 = 0x0 := by decide

/-- The states of an ill-formed CLRERR, of a clear record, and of the example's STATUS. -/
theorem witness_ClrerrClearsTheErrorRecord : Reference.bits 0x108 3 0 = 0x8 ∧ (0x108 : Word).toNat ≠ 0x8 ∧
    (withError State.reset 1 0).err ≠ 0 ∧ State.reset.err = 0 ∧ State.reset.eovf = false ∧ State.reset.errcmd = 0 ∧
    statusWord (withError (custom (specOf 8 true 1 0 0)) 3 0x4) = 0x0000FF31 := by decide +kernel

theorem witness_SelectLoadsTheCatalogEntry : (0x07 : Byte).toNat < 8 ∧ 8 ≤ (0x08 : Byte).toNat ∧ 8 ≤ (0xFF : Byte).toNat ∧
    Reference.bits 0x0000FF01 3 0 = 0x1 ∧ Reference.bits 0x00010001 3 0 = 0x1 ∧ State.reset.catalog = catalogRom := by
  decide +kernel

/-- A staged spec of each width at its widest values, one with each value too wide, an unsupported width, and the rule's
example. -/
theorem witness_ConfigLoadsTheStagedSpec :
    (specOf 8 true 0xFF 0xFF 0xFF).valid = true ∧ (specOf 16 false 0xFFFF 0xFFFF 0xFFFF).valid = true ∧
    (specOf 32 true 0xFFFFFFFF 0xFFFFFFFF 0xFFFFFFFF).valid = true ∧ (specOf 8 true 0x100 0 0).valid = false ∧
    (specOf 16 true 0 0x10000 0).valid = false ∧ (specOf 8 true 0 0 0x100).valid = false ∧ (specOf 24 true 0 0 0).valid = false ∧
    Reference.bits 0x00000102 3 0 = 0x2 ∧ (staged (specOf 8 false 0x07 0x00 0x00)).stg =
      { width := 8, reflected := false, poly := 0x07, init := 0x00, xorout := 0x00 } := by decide

theorem witness_InitLoadsTheInitialValue : (selected 6).act.cfgv = true ∧ (selected 6).act.toSpec = catalogRom[6] ∧
    (selected 5).act.cfgv = true ∧ (selected 5).act.toSpec = catalogRom[5] ∧ State.reset.act.cfgv = false ∧
    (0x07 : Byte).toNat < 8 ∧ exec (.select 7) State.reset = .next (selected 7) ∧
    (staged (specOf 8 true 0xFF 0xFF 0xFF)).stg.valid = true ∧
    exec .config (staged (specOf 8 true 0xFF 0xFF 0xFF)) = .next (custom (specOf 8 true 0xFF 0xFF 0xFF)) ∧
    Reference.bits 0x00000103 3 0 = 0x3 := by
  simp only [next_iff]; decide +kernel

theorem witness_UpdbFoldsOneByte : (selected 4).act.cfgv = true ∧ State.reset.act.cfgv = false ∧
    (withCrc (selected 0) 0xFF).act.cfgv = true ∧ (withCrc (selected 0) 0xFF).act.toSpec = catalogRom[0] ∧
    (withCrc (selected 0) 0xFF).crc = 0xFF ∧ (selected 4).act.toSpec = catalogRom[4] ∧ (selected 4).crc = 0xFFFF ∧
    Reference.bits 0x80000004 3 0 = 0x4 ∧ Reference.bits 0x0000FF04 3 0 = 0x4 := by decide +kernel

theorem witness_ZeroInputsOnlyShift : (selected 7).act.cfgv = true ∧ (selected 7).crc = 0 ∧ BlockInv (custom polyZero) ∧
    (custom polyZero).act.cfgv = true ∧ (custom polyZero).act.poly = 0 :=
  ⟨rfl, rfl, inv_polyZero, rfl, rfl⟩

theorem witness_UpdrFoldsOneByteAsUpdbDoes : (selected 6).act.cfgv = true ∧ State.reset.act.cfgv = false ∧
    (selected 6).act.toSpec = catalogRom[6] ∧ (selected 6).crc = 0xFFFFFFFF ∧ Reference.bits 0x0000FF05 3 0 = 0x5 ∧
    Reference.bits 0x00000015 3 0 = 0x5 := by decide +kernel

theorem witness_UpdnFoldsOneByteByTable : BlockInv (waiting 5 []) ∧ (waiting 5 []).act.cfgv = true ∧ (waiting 5 []).crc = 0 ∧
    BlockInv (custom polyZero) ∧ (custom polyZero).act.poly = 0 ∧ BlockInv (waiting 6 []) ∧
    (waiting 6 []).act.toSpec = catalogRom[6] ∧ (waiting 6 []).crc = 0xFFFFFFFF ∧ BlockInv (waiting 4 []) ∧
    (waiting 4 []).act.toSpec = catalogRom[4] ∧ (waiting 4 []).crc = 0xFFFF ∧ State.reset.act.cfgv = false ∧
    Reference.bits 0x00000016 3 0 = 0x6 :=
  ⟨inv_waiting 5 [], rfl, rfl, inv_polyZero, rfl, inv_waiting 6 [], rfl, rfl, inv_waiting 4 [], rfl, rfl, rfl, by decide⟩

theorem witness_FinalLatchesTheChecksum : (withCrc (selected 6) 0x803893D0).act.cfgv = true ∧
    (withCrc (selected 6) 0x803893D0).act.toSpec = catalogRom[6] ∧ (withCrc (selected 6) 0x803893D0).crc = 0x803893D0 ∧
    (withCrc (selected 1) 0x6D).act.toSpec = catalogRom[1] ∧ (withCrc (selected 1) 0x6D).crc = 0x6D ∧
    exec .init (withCrc (selected 6) 1) = .next (selected 6) ∧ State.reset.act.cfgv = false ∧
    Reference.bits 0x00000107 3 0 = 0x7 := by
  simp only [next_iff]; decide +kernel

theorem witness_SelectedRowsReadBack : State.reset.catalog = catalogRom := rfl

theorem witness_CommandsReplaceTheSpecWhole : exec (.select 7) State.reset = .next (selected 7) ∧
    exec .nop (selected 6) = .next (selected 6) := by
  simp only [next_iff]; decide +kernel

theorem witness_ErrorsAreRecordedOnce : (ErrorKind.illegalCommand, 4#4) ∈
      [(ErrorKind.invalidSpec, 1#4), (.unknownAlgorithm, 2#4), (.notConfigured, 3#4), (.illegalCommand, 4#4)] ∧
    State.reset.err = 0 ∧ (withError State.reset 4 0x9).err ≠ 0 := by decide

theorem witness_CommandsReportOneErrorInPriority : (∀ i, decode 0x00000009 ≠ .ok i) ∧ decode 0x00000801 = .ok (.select 8) ∧
    ownError (.select 8) State.reset = some .unknownAlgorithm ∧ decode 0x00000701 = .ok (.select 7) ∧
    ownError (.select 7) State.reset = none ∧ ownError .config State.reset = some .invalidSpec ∧
    ownError (.updn 0) State.reset = some .notConfigured :=
  ⟨fun i h => absurd ((show decode 0x00000009 = .error .reservedOpcode by decide).symm.trans h) (by simp), by decide⟩

theorem witness_CommandsThatNeedASpecRaiseNotConfigured : State.reset.act.cfgv = false ∧ State.reset.err ≠ 3 ∧
    exec (.select 0) State.reset = .next (selected 0) := by
  simp only [next_iff]; decide +kernel

theorem witness_FirstErrorIsSticky : (withError State.reset 1 0x2).err ≠ 0 ∧ cmdWrite 0x9 ≠ .reset ∧
    cmdWrite 0x9 ≠ .write 0x00 4 0x00000008 ∧
    step { withError State.reset 1 0x2 with pending := [cmdWrite 0x9] } =
      .next { withError State.reset 1 0x2 with eovf := true, reply := .ack } := by
  simp only [next_iff]; decide +kernel

/-- Widths at both ends, and values at the top of their width. -/
theorem witness_BitStepsMatchTheNaturals : (1 ≤ 1 ∧ 1 ≤ 32 ∧ (1 : Word).toNat < 2 ^ 1) ∧
    (1 ≤ 32 ∧ 32 ≤ 32 ∧ (0xFFFFFFFF : Word).toNat < 2 ^ 32) := by decide

/-- The hypotheses of BitUpdateMatchesTheNaturals, DataBitsEnterInReflectedOrder, TableEntriesMatchTheNaturals and
TableEngineAgreesWithBitSerial: every catalog entry at its initial value, and custom specs at the top of their width. -/
theorem witness_valid_specs :
    (∀ k : Fin 8, (catalogRom[k]).valid = true ∧ (catalogRom[k]).init.toNat < 2 ^ (catalogRom[k]).bits) ∧
    (specOf 32 true 0xFFFFFFFF 0 0).valid = true ∧ (0xFFFFFFFF : Word).toNat < 2 ^ (specOf 32 true 0xFFFFFFFF 0 0).bits ∧
    (specOf 8 false 0 0 0).valid = true ∧ (0xFF : Word).toNat < 2 ^ (specOf 8 false 0 0 0).bits := by decide +kernel

/-- A table of the widest entries. -/
theorem witness_NibUpdateMatchesTheNaturals : (catalogRom[1]).valid = true ∧ Reference.inWidth catalogRom[1] 0xFF ∧
    (∀ (i : Nat) (_ : i < 16), Reference.inWidth catalogRom[1] (Vector.replicate 16 (0xFF : Word))[i]) := by
  have fits : Reference.inWidth catalogRom[1] 0xFF := by unfold Reference.inWidth; decide
  exact ⟨by decide, fits, fun i hi => by rw [Vector.getElem_replicate]; exact fits⟩

theorem witness_TableIsLinearInItsIndex : (catalogRom[6]).valid = true ∧ (catalogRom[6]).reflected = true ∧
    (catalogRom[7]).valid = true ∧ (catalogRom[7]).reflected = false := by decide

theorem witness_TheThreeEnginesAgree : BlockInv (waiting 7 []) ∧ (waiting 7 []).act.cfgv = true := ⟨inv_waiting 7 [], rfl⟩

/-- Refused accesses at the boundaries, and admitted ones at the first and last offset. -/
theorem witness_OnlyUnadmittedAccessesAreRefused : (0x7D : Nat) % 4 ≠ 0 ∧ (0x80 : Nat) ≥ 0x80 ∧ (3 : Nat) ≠ 4 ∧
    { State.reset with pending := [.write 0x80 4 1] }.pending = .write 0x80 4 1 :: [] ∧
    { State.reset with pending := [.read 0x7C 3] }.pending = .read 0x7C 3 :: [] ∧
    (0x7C : Nat) % 4 = 0 ∧ (0x7C : Nat) < 0x80 ∧ { State.reset with pending := [.read 0x7C 4] }.pending = .read 0x7C 4 :: [] ∧
    { State.reset with pending := [.reset] }.pending = .reset :: [] ∧ State.reset.pending = [] := by decide

/-- The clauses of the register map, with the first and last table entry. -/
theorem witness_ReadsReturnTheRegister : (0x3C, (0 : Word)) ∈ [(0x34, 0), (0x38, 0), (0x3C, 0)] ∧
    (0x00000601 : Word).toNat = (selected 6).act.sel.toNat * 2 ^ 8 + (selected 6).err.toNat * 2 ^ 4 +
      (selected 6).eovf.toNat * 2 + (selected 6).act.cfgv.toNat ∧
    (0x00000120 : Word).toNat = (selected 6).act.reflected.toNat * 2 ^ 8 + (selected 6).act.width.toNat ∧
    (0x00000008 : Word).toNat = (staged (specOf 8 false 7 0 0)).stg.reflected.toNat * 2 ^ 8 +
      (staged (specOf 8 false 7 0 0)).stg.width.toNat ∧
    (0x40 = 0x40 + 4 * 0 ∧ (0 : Word) = (selected 6).table[0]) ∧
    (0x7C = 0x40 + 4 * 15 ∧ (0xBDBDF21C : Word) = (selected 6).table[15]) := by decide +kernel

theorem witness_WritesReachTheWritableRegisters : (0x00 : Nat) % 4 = 0 ∧ 0x00 < 0x80 ∧ (0x7C : Nat) % 4 = 0 ∧ 0x7C < 0x80 ∧
    (0x7C : Nat) ≠ 0x00 ∧ (selected 1).act.cfgv = true := by decide +kernel

theorem witness_AdmittedAccessesAreServed : (0x7C : Nat) % 4 = 0 ∧ 0x7C < 0x80 ∧
    (waiting 6 [.read 0x7C 4, .reset]).pending = .read 0x7C 4 :: [.reset] ∧
    (waiting 1 [.write 0x08 4 0x12345678]).pending = .write 0x08 4 0x12345678 :: [] ∧
    memWrite 0x08 0x12345678 (waiting 1 []) = .next (withCrc (waiting 1 []) 0x78) := by
  simp only [next_iff]; decide +kernel

/-- CRC writes at widths 8 and 32, and with no spec. -/
theorem witness_CrcWriteKeepsTheWidth : ActOk (waiting 1 []) ∧ (waiting 1 []).act.cfgv = true ∧ (waiting 1 []).act.width = 8 ∧
    ActOk (waiting 6 []) ∧ (waiting 6 []).act.cfgv = true ∧ ActOk { State.reset with pending := [] } ∧
    State.reset.act.cfgv = false :=
  ⟨(inv_waiting 1 []).act, rfl, rfl, (inv_waiting 6 []).act, rfl, (inv_reset []).act, rfl⟩

theorem witness_WritesButCommandsAreIdempotent :
    serve (.read 0x7C 4) State.reset = .next { State.reset with reply := .data 0 } ∧ (0x10 : Nat) ≠ 0x00 ∧
    serve (.write 0x10 4 7) State.reset =
      .next { State.reset with stg := { State.reset.stg with poly := 7 }, reply := .ack } := by
  simp only [next_iff]; decide +kernel

theorem witness_StagingWritesComeInAnyOrder : (specOf 8 false 0x07 0 0).valid = true ∧
    [Input.write 0x1C 4 0x8, .write 0x18 4 0, .write 0x14 4 0, .write 0x10 4 0x7].Perm
      [.write 0x10 4 0x7, .write 0x14 4 0, .write 0x18 4 0, .write 0x1C 4 (specOf 8 false 0x07 0 0).ctrlWord] ∧
    { State.reset with pending :=
        [.write 0x1C 4 0x8, .write 0x18 4 0, .write 0x14 4 0, .write 0x10 4 0x7, issueCommand .config] }.pending =
      [.write 0x1C 4 0x8, .write 0x18 4 0, .write 0x14 4 0, .write 0x10 4 0x7] ++ issueCommand .config :: [] := by decide

/-- The first and last address of a window, and the addresses next to it. -/
theorem witness_WindowSitsAtTheBase : (0x7F : Nat) < 0x80 ∧ 0x507F = 0x5000 + 0x7F ∧ (0x4FFF < 0x5000) ∧
    (0x5000 + 0x80 ≤ 0x5080) ∧ readAt 0x5000 0x507C = some (.read 0x7C 4) ∧ writeAt 0x5000 0x5080 0 = none := by decide

/-- Two states that read alike and differ in what the window does not show. -/
theorem witness_TheWindowShowsAllRegisters : ∀ off, off % 4 = 0 → off < 0x80 →
    memRead off (selected 6) = memRead off { selected 6 with pending := [.reset], reply := .ack } := by
  intro off _ _; unfold memRead; split <;> rfl

/-- A command that succeeds, one that fails, and offsets outside what each may change. -/
theorem witness_CommandsLeaveOtherRegistersAlone : exec (.updb 1) (selected 4) = .next (withCrc (selected 4) 0xF1D1) ∧
    ownError (.updb 1) (selected 4) = none ∧ (0x04 : Nat) ≠ 0x08 ∧ exec .init State.reset = .next (withError State.reset 3 0x3) ∧
    ownError .init State.reset = some .notConfigured ∧ 0x08 ∉ [0x04, 0x30] ∧
    exec .clrerr (withError State.reset 3 0x3) = .next State.reset ∧
    exec .final (selected 3) = .next { selected 3 with result := 0xFFFF } ∧ (0x7C : Nat) ≠ 0x0C ∧
    exec (.select 4) State.reset = .next (selected 4) ∧ 0x3C ∉ [0x04, 0x08, 0x20, 0x24, 0x28, 0x2C] ∧ 0x3C < 0x40 := by
  simp only [next_iff]; decide +kernel

theorem witness_OnlyTheHostWritesStaging : exec .nop State.reset = .next State.reset ∧
    step { State.reset with pending := [.write 0x10 4 7] } =
      .next { State.reset with stg := { State.reset.stg with poly := 7 }, reply := .ack } ∧
    step { staged (specOf 8 true 1 1 1) with pending := [.reset] } = .next State.reset := by
  simp only [next_iff]; decide +kernel

theorem witness_OnlyFinalWritesResult :
    step (waiting 3 [.write 0x00 4 7]) = .next { selected 3 with result := 0xFFFF, reply := .ack } ∧
    step { State.reset with result := 1, pending := [.reset] } = .next State.reset ∧
    BlockInv (waiting 3 []) ∧ (waiting 3 []).act.cfgv = true ∧
    exec .final (waiting 3 []) = .next { selected 3 with result := 0xFFFF } :=
  ⟨next_iff.mpr (by decide +kernel), next_iff.mpr (by decide +kernel), inv_waiting 3 [], rfl, next_iff.mpr (by decide +kernel)⟩

theorem witness_OnlySelectAndConfigWriteAct :
    step { State.reset with pending := [issueCommand (.select 7)] } = .next { selected 7 with reply := .ack } ∧
    step { staged (specOf 8 true 1 1 1) with pending := [issueCommand .config] } =
      .next { custom (specOf 8 true 1 1 1) with reply := .ack } ∧
    step (waiting 6 [.reset]) = .next State.reset := by
  simp only [next_iff]; decide +kernel

theorem witness_WritersOfCrc :
    step (waiting 4 [issueCommand (.updn 1)]) = .next { withCrc (selected 4) 0xF1D1 with reply := .ack } ∧
    step (waiting 1 [.write 0x08 4 0x78]) = .next { withCrc (selected 1) 0x78 with reply := .ack } ∧
    step (waiting 6 [.reset]) = .next State.reset := by
  simp only [next_iff]; decide +kernel

/-- Of CatalogIsNeverWritten, InputsAreServedInOrder and ResetInputResetsTheBlock: a reset with another input behind it. -/
theorem witness_InputsAreServedInOrder : (waiting 6 [.reset, .read 0x04 4]).pending = .reset :: [.read 0x04 4] ∧
    step (waiting 6 [.reset, .read 0x04 4]) = .next { State.reset with pending := [.read 0x04 4] } ∧
    State.reset.pending = [] := by
  simp only [next_iff]; decide +kernel

theorem witness_ResetSetsEveryRegister : (State.reset = State.reset ∨ State.reset = resetBlock (selected 6)) ∧
    resetBlock (selected 6) ≠ selected 6 := ⟨.inl rfl, by decide +kernel⟩

theorem witness_EveryStepKeepsTheInvariant : BlockInv (waiting 4 [issueCommand (.updn 1)]) ∧
    step (waiting 4 [issueCommand (.updn 1)]) = .next { withCrc (selected 4) 0xF1D1 with reply := .ack } :=
  ⟨inv_waiting 4 _, next_iff.mpr (by decide +kernel)⟩

/-- A stream of every engine with other accesses between: a read, a staging write, an illegal word, a FINAL. -/
def stream : List Input :=
  [cmdWrite 0x104, .read 0x7C 4, cmdWrite 0x3205, .write 0x1C 4 8, cmdWrite 0x9, cmdWrite 0xF006, cmdWrite 0x7]

theorem witness_StreamsFoldTheirBytes : BlockInv (waiting 6 (stream ++ [.reset])) ∧
    (waiting 6 (stream ++ [.reset])).act.cfgv = true ∧ (waiting 6 (stream ++ [.reset])).pending = stream ++ [.reset] ∧
    (∀ x ∈ stream, Reference.keepsStream x = true) ∧ stream.flatMap Reference.dataOf = [0x01, 0x32, 0xF0] ∧
    Reference.keepsStream (.write 0x08 4 0) = false ∧ Reference.keepsStream (cmdWrite 0x3) = false :=
  ⟨inv_waiting 6 _, rfl, rfl, by decide⟩

theorem witness_ComputeLeavesTheChecksum : BlockInv (waiting 6 (compute .table [0x01] ++ [.reset])) ∧
    (waiting 6 (compute .table [0x01] ++ [.reset])).act.cfgv = true ∧
    (waiting 6 (compute .table [0x01] ++ [.reset])).pending = compute .table [0x01] ++ [.reset] ∧
    compute .bitSerial [] = [cmdWrite 0x3, cmdWrite 0x7] :=
  ⟨inv_waiting 6 _, rfl, rfl, by decide⟩

/-- What resumes a stream: the spec again, CRC back, and the rest. -/
def resume (c : Instr) (v : Word) (e : Engine) : List Input :=
  issueCommand c :: restore v ++ updMany e [0x01] ++ [issueCommand .final]

/-- A stream saved under a catalog entry, and one under a custom spec that is still staged, resumed in another state. -/
theorem witness_SavedStreamsResume :
    BlockInv (waiting 6 (updMany .table [0x01] ++ [issueCommand .final])) ∧ (waiting 6 []).act.cfgv = true ∧
    (waiting 6 []).act.sel ≠ 0xFF ∧
    BlockInv { State.reset with pending := resume (.select (waiting 6 []).act.sel) (waiting 6 []).crc .reference } ∧
    (waiting 6 []).act.sel = 6 ∧ (waiting 6 []).crc = 0xFFFFFFFF ∧
    BlockInv { custom polyZero with pending := updMany .bitSerial [0x01] ++ [issueCommand .final] } ∧
    BlockInv { custom polyZero with pending := resume .config 0xFFFF .table } ∧
    (custom polyZero).stg = (custom polyZero).act.toSpec ∧ (custom polyZero).crc = 0xFFFF :=
  ⟨inv_waiting 6 _, rfl, by decide, inv_reset _, rfl, rfl, inv_custom (sp := polyZero) (by decide) (by decide) _,
    inv_custom (sp := polyZero) (by decide) (by decide) _, rfl, rfl⟩

end Sys2Proof.Tests
end

section
/-! PROOF. O18: what a command does to the active spec and its table (10_state.md R26). -/

namespace Sys2Proof.Machine

/-- SELECT loads the catalog entry of a code below 8, and records UnknownAlgorithm for any other (40_configuration.md
R101). -/
theorem execSelect_cases {k : Byte} {s t : State} (h : execSelect k s = .next t) :
    (∃ hk : k.toNat < 8, t = loadSpec s.catalog[k.toNat] k s) ∨
    (¬ k.toNat < 8 ∧ t = raiseError .unknownAlgorithm (encode (.select k)) s) := by
  obtain rfl := Host.Outcome.next.inj h
  split
  · exact .inl ⟨‹_›, rfl⟩
  · exact .inr ⟨‹_›, rfl⟩

/-- CONFIG loads a valid staged spec, and records InvalidSpec otherwise (40_configuration.md R104). -/
theorem execConfig_cases {s t : State} (h : execConfig s = .next t) :
    (s.stg.valid = true ∧ t = loadSpec s.stg 0xFF s) ∨
    (s.stg.valid = false ∧ t = raiseError .invalidSpec (encode .config) s) := by
  obtain rfl := Host.Outcome.next.inj h
  split
  · exact .inl ⟨‹_›, rfl⟩
  · exact .inr ⟨Bool.eq_false_of_not_eq_true ‹_›, rfl⟩

/-- A command that needs an active spec has its effect, or records NotConfigured (60_exceptions.md R201). -/
theorem whenConfigured_cases {c : Word} {s t u : State} (h : whenConfigured c s u = .next t) :
    (s.act.cfgv = true ∧ t = u) ∨ (s.act.cfgv = false ∧ t = raiseError .notConfigured c s) := by
  obtain rfl := Host.Outcome.next.inj h
  split
  · exact .inl ⟨‹_›, rfl⟩
  · exact .inr ⟨Bool.eq_false_of_not_eq_true ‹_›, rfl⟩

/-- A command whose effect leaves ACT and TABLE leaves them in either outcome of the test for an active spec. -/
theorem whenConfigured_keeps_spec {c : Word} {s t u : State} (h : whenConfigured c s u = .next t)
    (hact : u.act = s.act) (htable : u.table = s.table) : t.act = s.act ∧ t.table = s.table := by
  obtain ⟨-, rfl⟩ | ⟨-, rfl⟩ := whenConfigured_cases h
  · exact ⟨hact, htable⟩
  · simp

/-- A command leaves ACT and TABLE, or is a SELECT or CONFIG that loads a spec. -/
theorem exec_keeps_spec_or_loads {i : Instr} {s t : State} (h : exec i s = .next t) :
    (t.act = s.act ∧ t.table = s.table) ∨
    ((i = .config ∨ ∃ k, i = .select k) ∧ ∃ sp sel, t = loadSpec sp sel s) := by
  cases i with
  | nop =>
    obtain rfl := Host.Outcome.next.inj h
    exact .inl ⟨rfl, rfl⟩
  | select k =>
    obtain ⟨hk, rfl⟩ | ⟨-, rfl⟩ := execSelect_cases h
    · exact .inr ⟨.inr ⟨k, rfl⟩, _, _, rfl⟩
    · simp
  | config =>
    obtain ⟨-, rfl⟩ | ⟨-, rfl⟩ := execConfig_cases h
    · exact .inr ⟨.inl rfl, _, _, rfl⟩
    · simp
  | init | updb | updr | updn | final => exact .inl (whenConfigured_keeps_spec h rfl rfl)
  | clrerr =>
    obtain rfl := Host.Outcome.next.inj h
    exact .inl ⟨rfl, rfl⟩

/-- Settles O18: `loadSpec` is the replacement of ACT, TABLE and CRC that the statement writes out. -/
theorem commandsReplaceTheSpecWhole : Obligations.CommandsReplaceTheSpecWhole :=
  fun _ _ _ h => exec_keeps_spec_or_loads h

end Sys2Proof.Machine
end

section
/-! PROOF. O50: the registers after reset, by field and through the window (10_state.md R36). -/

namespace Sys2Proof.Machine

/-- The state after reset is what a reset leaves of it. -/
theorem resetBlock_reset : resetBlock State.reset = State.reset := rfl

/-- After reset STATUS shows no more than the empty selector (10_state.md R29, R36). -/
@[simp] theorem statusWord_resetBlock (s : State) : statusWord (resetBlock s) = 0x0000FF00 := by
  simp [statusWord, ActiveSpec.reset]

/-- After reset every table entry is 0 (10_state.md R32). -/
@[simp] theorem tableEntry_resetBlock (s : State) (i : Nat) : tableEntry (resetBlock s) i = 0 := by
  simp [tableEntry, Vector.get]

/-- After reset the whole window reads 0, STATUS apart. -/
theorem memRead_resetBlock (s : State) (off : Nat) :
    memRead off (resetBlock s) = if off = 0x04 then 0x0000FF00 else 0 := by
  by_cases h : off = 0x04
  · simp [h, memRead]
  · rw [if_neg h]
    unfold memRead
    split
    case h_2 => exact absurd rfl h
    all_goals simp [Spec.ctrlWord, ActiveSpec.reset]

/-- Settles O50: `State.reset` is a reset of itself, so the laws of `resetBlock` give both cases. -/
theorem resetSetsEveryRegister : Obligations.ResetSetsEveryRegister := by
  intro s t ht
  obtain ⟨u, rfl⟩ : ∃ u, t = resetBlock u := by
    obtain rfl | rfl := ht
    · exact ⟨State.reset, resetBlock_reset.symm⟩
    · exact ⟨s, rfl⟩
  exact ⟨resetBlock_crc u, resetBlock_result u, resetBlock_act u, resetBlock_stg u, resetBlock_err u, resetBlock_eovf u,
    resetBlock_errcmd u, fun i hi => by simp, fun off _ _ => memRead_resetBlock u off, resetBlock_catalog s⟩

end Sys2Proof.Machine
end

section
/-! PROOF. O36 and O38: what a host write to a register of the window does (20_memory.md R55, R58). -/

namespace Sys2Proof.Machine

/-! ## The fields of a written value -/

/-- Bits [7:0] of a value, the width of a STG_CTRL write, are its low byte (10_state.md R28). -/
theorem ofNat_bits_low_byte (v : Word) : BitVec.ofNat 8 (Reference.bits v 7 0) = v.extractLsb' 0 8 := by
  apply BitVec.eq_of_toNat_eq
  simp [Reference.bits]

/-- A field of one bit is 1 exactly when that bit is set (00_scope.md R7). -/
theorem decide_bits_self_eq_one (v : Word) (i : Nat) : decide (Reference.bits v i i = 1) = v.getLsbD i := by
  simp [Reference.bits, BitVec.getLsbD, Nat.testBit_eq_decide_div_mod_eq]

/-- Masking to a width keeps the value modulo 2^w (00_scope.md R8). -/
theorem and_mask_eq_ofNat_mod (v : Word) {w : Nat} (hw : w ≤ 32) : v &&& mask w = BitVec.ofNat 32 (v.toNat % 2 ^ w) := by
  rw [← and_mask_toNat v hw, BitVec.ofNat_toNat, BitVec.setWidth_eq]

/-! ## Register writes -/

theorem writeCrc_of_active {s : State} (h : s.act.cfgv = true) (v : Word) :
    writeCrc v s = { s with crc := v &&& mask s.act.bits } := if_pos h

theorem writeCrc_of_inactive {s : State} (h : s.act.cfgv = false) (v : Word) : writeCrc v s = s :=
  if_neg (by simp [h])

theorem writeCrc_crc (v : Word) (s : State) :
    (writeCrc v s).crc = if s.act.cfgv = true then v &&& mask s.act.bits else s.crc := by
  unfold writeCrc; split <;> rfl

@[simp] theorem writeCrc_stg (v : Word) (s : State) : (writeCrc v s).stg = s.stg := by
  unfold writeCrc; split <;> rfl

/-- Only the write at offset 0x08 reaches CRC. -/
theorem writeRegister_crc (off : Nat) (v : Word) (s : State) :
    (writeRegister off v s).crc = if off = 0x08 ∧ s.act.cfgv = true then v &&& mask s.act.bits else s.crc := by
  unfold writeRegister
  split
  case h_1 => simp [writeCrc_crc]
  case h_6 hcrc _ _ _ _ => rw [if_neg fun h => hcrc h.1]
  all_goals rfl

/-- Each of the four staging offsets reaches its own part of STG (10_state.md R27, R28). -/
theorem writeRegister_stg (off : Nat) (v : Word) (s : State) :
    (writeRegister off v s).stg =
      { poly := if off = 0x10 then v else s.stg.poly
        init := if off = 0x14 then v else s.stg.init
        xorout := if off = 0x18 then v else s.stg.xorout
        width := if off = 0x1C then v.extractLsb' 0 8 else s.stg.width
        reflected := if off = 0x1C then v.getLsbD 8 else s.stg.reflected } := by
  unfold writeRegister
  split
  case h_1 => exact writeCrc_stg v s
  case h_6 _ hpoly hinit hxorout hctrl => rw [if_neg hpoly, if_neg hinit, if_neg hxorout, if_neg hctrl, if_neg hctrl]
  all_goals rfl

/-- A register write changes nothing but CRC and STG. -/
theorem writeRegister_frame (off : Nat) (v : Word) (s : State) :
    writeRegister off v s = { s with crc := (writeRegister off v s).crc, stg := (writeRegister off v s).stg } := by
  unfold writeRegister writeCrc; split <;> (try split) <;> rfl

/-- Settles O36: CMD runs the command by definition, and the frame of a register write leaves CRC and STG, whose values
after it `writeRegister_crc` and `writeRegister_stg` give. -/
theorem writesReachTheWritableRegisters : Obligations.WritesReachTheWritableRegisters := by
  intro s off v _ _
  refine ⟨fun hcmd => if_pos hcmd, fun hcmd => ?_⟩
  rw [memWrite, if_neg hcmd, writeRegister_frame, writeRegister_crc, writeRegister_stg, ofNat_bits_low_byte,
    decide_bits_self_eq_one]
  rfl

/-- A CRC write under a legal active spec keeps the value modulo 2^width (20_memory.md R58). -/
theorem writeRegister_crc_of_active {s : State} (hok : ActOk s) (h : s.act.cfgv = true) (v : Word) :
    writeRegister 0x08 v s = { s with crc := BitVec.ofNat 32 (v.toNat % 2 ^ s.act.width.toNat) } := by
  obtain ⟨hactive, -⟩ := hok
  obtain ⟨hvalid, -⟩ := hactive h
  obtain ⟨hwidth, -⟩ := (Spec.valid_iff _).mp hvalid
  have hle : s.act.bits ≤ 32 := by omega
  calc writeRegister 0x08 v s
      = { s with crc := v &&& mask s.act.bits } := writeCrc_of_active h v
    _ = _ := by rw [and_mask_eq_ofNat_mod v hle]; rfl

/-- Settles O38: a valid spec has a width of at most 32, where the mask is the remainder. -/
theorem crcWriteKeepsTheWidth : Obligations.CrcWriteKeepsTheWidth := by
  intro s v hok
  refine ⟨fun h => writeRegister_crc_of_active hok h v, fun h => writeCrc_of_inactive h v, fun h hwidth => ?_⟩
  rw [writeRegister_crc_of_active hok h, hwidth]
  rfl

end Sys2Proof.Machine
end

section
/-! PROOF. O35: what a read of the register window returns (20_memory.md R54). -/

namespace Sys2Proof.Machine

/-- From 0x40 on the window holds the table (10_state.md R31). -/
theorem memRead_of_ge {off : Nat} (h : 0x40 ≤ off) (s : State) : memRead off s = tableEntry s ((off - 0x40) / 4) := by
  unfold memRead
  split
  case h_14 => exact if_pos h
  all_goals omega

theorem tableEntry_of_lt {i : Nat} (hi : i < 16) (s : State) : tableEntry s i = s.table[i] := by
  simp [tableEntry, Vector.get_eq_getElem, Nat.mod_eq_of_lt hi]

theorem memRead_table {i : Nat} (hi : i < 16) (s : State) : memRead (0x40 + 4 * i) s = s.table[i] := by
  have hindex : (0x40 + 4 * i - 0x40) / 4 = i := by omega
  rw [memRead_of_ge (by omega), hindex, tableEntry_of_lt hi]

/-- Settles O35: the whole registers by the map's equations, STATUS and the two CTRL views by their values as numbers, the
table by its index. -/
theorem readsReturnTheRegister : Obligations.ReadsReturnTheRegister := by
  rintro s off v (hmap | ⟨rfl, hv⟩ | ⟨rfl, hv⟩ | ⟨rfl, hv⟩ | ⟨i, hi, rfl, rfl⟩)
  · refine (List.forall_iff_forall_mem (p := fun row => memRead row.1 s = row.2)).mp ?_ (off, v) hmap
    simp [memRead]
  · exact BitVec.eq_of_toNat_eq ((statusWord_toNat s).trans hv.symm)
  · exact BitVec.eq_of_toNat_eq ((ctrlWord_toNat s.stg).trans hv.symm)
  · exact BitVec.eq_of_toNat_eq ((ctrlWord_toNat s.act.toSpec).trans hv.symm)
  · exact memRead_table hi s

end Sys2Proof.Machine
end

section
/-! PROOF. O2: the words that are instructions, by the opcode map, by the decoder and by their fields (30_encoding.md R72,
R73). -/

namespace Sys2Proof.Machine

/-! ## The decoder -/

/-- An instruction's opcode and ARG dispatch to it. -/
@[simp] theorem dispatchOp_opcode_arg (i : Instr) : dispatchOp i.opcode i.arg = some i := by cases i <;> rfl

theorem arg_eq_zero_of_takesNoArg {i : Instr} (h : takesNoArg i.opcode = true) : i.arg = 0 := by
  cases i with
  | nop | config | init | final | clrerr => rfl
  | select | updb | updr | updn => exact Bool.noConfusion h

/-- Every opcode below 9 has an instruction. -/
theorem exists_dispatchOp_of_lt {op : BitVec 4} (h : op.toNat < 9) (a : Byte) : ∃ i, dispatchOp op a = some i := by
  unfold dispatchOp
  generalize op.toNat = n at h
  interval_cases n <;> exact ⟨_, rfl⟩

/-- The decoder accepts what the dispatch gives when the fields pass the tests of 30_encoding.md R73. -/
theorem decode_eq_ok_iff_fields {c : Word} {i : Instr} : decode c = .ok i ↔
    dispatchOp (opField c) (argField c) = some i ∧ res0Field c = 0 ∧ res1Field c = 0 ∧
      (takesNoArg (opField c) = true → argField c = 0) := by
  unfold decode
  cases dispatchOp (opField c) (argField c) with
  | none => simp
  | some j =>
    dsimp only
    split_ifs with hres hno
    · exact iff_of_false (by simp) fun ⟨_, hres0, hres1, _⟩ => hres.elim (· hres0) (· hres1)
    · exact iff_of_false (by simp) fun ⟨_, _, _, hzero⟩ => hno.2 (hzero hno.1)
    · obtain ⟨hres0, hres1⟩ : res0Field c = 0 ∧ res1Field c = 0 := by simpa using hres
      have hzero : takesNoArg (opField c) = true → argField c = 0 := by simpa using hno
      simpa using fun _ => ⟨hres0, hres1, hzero⟩

theorem decode_encode (i : Instr) : decode (encode i) = .ok i :=
  decode_eq_ok_iff_fields.mpr ⟨by simp, by simp, by simp, by simpa using arg_eq_zero_of_takesNoArg⟩

theorem encode_of_decode {c : Word} {i : Instr} (h : decode c = .ok i) : encode i = c := by
  obtain ⟨hi, hres0, hres1, hnoArg⟩ := decode_eq_ok_iff_fields.mp h
  obtain ⟨hop, harg⟩ := dispatchOp_eq_some hi
  have harg : i.arg = argField c := harg.elim id fun ⟨hno, hzero⟩ => hzero.trans (hnoArg hno).symm
  apply word_eq_of_fields <;> simp [*]

/-! ## The fields of an instruction's word -/

/-- The three tests of 30_encoding.md R73, passed. -/
def FieldsInOrder (c : Word) : Prop :=
  (opField c).toNat < 9 ∧ res0Field c = 0 ∧ res1Field c = 0 ∧ (takesNoArg (opField c) = true → argField c = 0)

theorem opcode_toNat_lt (i : Instr) : i.opcode.toNat < 9 := by cases i <;> simp [Instr.opcode]

theorem fieldsInOrder_encode (i : Instr) : FieldsInOrder (encode i) :=
  ⟨by simpa using opcode_toNat_lt i, by simp, by simp, by simpa using arg_eq_zero_of_takesNoArg⟩

theorem exists_encode_of_fieldsInOrder {c : Word} (h : FieldsInOrder c) : ∃ i, encode i = c := by
  obtain ⟨hop, hfields⟩ := h
  obtain ⟨i, hi⟩ := exists_dispatchOp_of_lt hop (argField c)
  exact ⟨i, encode_of_decode (decode_eq_ok_iff_fields.mpr ⟨hi, hfields⟩)⟩

theorem opField_toNat (c : Word) : (opField c).toNat = Reference.bits c 3 0 := by simp [opField, Reference.bits]

theorem res0Field_toNat (c : Word) : (res0Field c).toNat = Reference.bits c 7 4 := by
  simp [res0Field, Reference.bits, Nat.shiftRight_eq_div_pow]

theorem argField_toNat (c : Word) : (argField c).toNat = Reference.bits c 15 8 := by
  simp [argField, Reference.bits, Nat.shiftRight_eq_div_pow]

theorem res1Field_toNat (c : Word) : (res1Field c).toNat = Reference.bits c 31 16 := by
  simp [res1Field, Reference.bits, Nat.shiftRight_eq_div_pow]

theorem takesNoArg_iff_toNat_mem (op : BitVec 4) : takesNoArg op = true ↔ op.toNat ∈ [0x0, 0x2, 0x3, 0x7, 0x8] := by
  revert op; decide

/-- A word fails one of the three tests exactly when its fields, as numbers, say so (30_encoding.md R73). -/
theorem not_fieldsInOrder_iff_bits (c : Word) : ¬ FieldsInOrder c ↔
    Reference.bits c 3 0 ≥ 0x9 ∨ Reference.bits c 7 4 ≠ 0 ∨ Reference.bits c 31 16 ≠ 0 ∨
      (Reference.bits c 3 0 ∈ [0x0, 0x2, 0x3, 0x7, 0x8] ∧ Reference.bits c 15 8 ≠ 0) := by
  have zero : ∀ {n : Nat} (x : BitVec n), x = 0 ↔ x.toNat = 0 := fun x => BitVec.toNat_eq
  rw [FieldsInOrder, takesNoArg_iff_toNat_mem, zero (res0Field c), zero (res1Field c), zero (argField c), opField_toNat,
    res0Field_toNat, res1Field_toNat, argField_toNat]
  simp only [not_and_or, not_lt, Classical.not_imp]

/-! ## The opcode map -/

/-- A word under a mask that keeps OP, RES0 and RES1 agrees with the row in these fields. -/
theorem fields_of_covers_argMask {m c : Word} (h : OpcodeRow.covers { matchBits := m, maskBits := 0xFFFF00FF } c = true) :
    opField c = opField m ∧ res0Field c = res0Field m ∧ res1Field c = res1Field m := by
  obtain rfl : c &&& 0xFFFF00FF = m := of_decide_eq_true h
  have keeps : ∀ start len, BitVec.extractLsb' start len (0xFFFF00FF : Word) = BitVec.allOnes len →
      c.extractLsb' start len = (c &&& 0xFFFF00FF).extractLsb' start len := fun start len hmask => by
    rw [BitVec.extractLsb'_and, hmask, BitVec.and_allOnes]
  exact ⟨keeps 0 4 rfl, keeps 4 4 rfl, keeps 16 16 rfl⟩

/-- A row that leaves ARG free covers only words of its instruction. -/
theorem eq_encode_of_covers_argMask {m c : Word} {i : Instr}
    (h : OpcodeRow.covers { matchBits := m, maskBits := 0xFFFF00FF } c = true)
    (hop : opField m = i.opcode) (harg : i.arg = argField c) (hres0 : res0Field m = 0) (hres1 : res1Field m = 0) :
    encode i = c := by
  obtain ⟨hop', hres0', hres1'⟩ := fields_of_covers_argMask h
  apply word_eq_of_fields <;> simp [*]

/-- A row that fixes every bit covers one word. -/
theorem eq_of_covers_fullMask {m c : Word} (h : OpcodeRow.covers { matchBits := m, maskBits := 0xFFFFFFFF } c = true) :
    m = c := by
  obtain rfl : c &&& 0xFFFFFFFF = m := of_decide_eq_true h
  exact BitVec.and_allOnes

/-- The row of an instruction covers only words of that opcode (30_encoding.md R72). -/
theorem exists_encode_of_row_covers {j : Instr} {c : Word} (h : j.row.covers c = true) : ∃ i, encode i = c := by
  cases j with
  | nop => exact ⟨.nop, eq_of_covers_fullMask h⟩
  | select => exact ⟨.select (argField c), eq_encode_of_covers_argMask h rfl rfl rfl rfl⟩
  | config => exact ⟨.config, eq_of_covers_fullMask h⟩
  | init => exact ⟨.init, eq_of_covers_fullMask h⟩
  | updb => exact ⟨.updb (argField c), eq_encode_of_covers_argMask h rfl rfl rfl rfl⟩
  | updr => exact ⟨.updr (argField c), eq_encode_of_covers_argMask h rfl rfl rfl rfl⟩
  | updn => exact ⟨.updn (argField c), eq_encode_of_covers_argMask h rfl rfl rfl rfl⟩
  | final => exact ⟨.final, eq_of_covers_fullMask h⟩
  | clrerr => exact ⟨.clrerr, eq_of_covers_fullMask h⟩

theorem row_mem_opcodeMap (i : Instr) : i.row ∈ opcodeMap := by cases i <;> simp [opcodeMap, Instr.row]

theorem exists_row_of_mem_opcodeMap {r : OpcodeRow} (h : r ∈ opcodeMap) : ∃ j : Instr, r = j.row := by
  simp only [opcodeMap, List.mem_cons, List.not_mem_nil, or_false] at h
  obtain h | h | h | h | h | h | h | h | h := h <;> exact ⟨_, h⟩

theorem opcodeMap_nodup : opcodeMap.Nodup := by decide

/-- What `Laws.EncodeMatchesRow` states holds of every instruction. -/
theorem encodeMatchesRow (i : Instr) : Laws.EncodeMatchesRow.Statement i := by
  cases i with
  | nop => exact Laws.EncodeMatchesRow.nop
  | select k => exact Laws.EncodeMatchesRow.select k
  | config => exact Laws.EncodeMatchesRow.config
  | init => exact Laws.EncodeMatchesRow.init
  | updb b => exact Laws.EncodeMatchesRow.updb b
  | updr b => exact Laws.EncodeMatchesRow.updr b
  | updn b => exact Laws.EncodeMatchesRow.updn b
  | final => exact Laws.EncodeMatchesRow.final
  | clrerr => exact Laws.EncodeMatchesRow.clrerr

/-- In the opcode map exactly the instruction's own row covers its word. -/
theorem covers_encode_iff {i : Instr} {r : OpcodeRow} (hr : r ∈ opcodeMap) : r.covers (encode i) = true ↔ r = i.row := by
  obtain ⟨hown, honly⟩ := encodeMatchesRow i
  exact ⟨honly r hr, fun h => h ▸ hown⟩

theorem countP_covers_encode (i : Instr) : (opcodeMap.countP fun r => r.covers (encode i)) = 1 :=
  calc (opcodeMap.countP fun r => r.covers (encode i))
      = opcodeMap.count i.row := List.countP_congr fun r hr => by rw [covers_encode_iff hr, beq_iff_eq]
    _ = 1 := List.count_eq_one_of_mem opcodeMap_nodup (row_mem_opcodeMap i)

theorem countP_covers_eq_zero {c : Word} (h : ∀ i, encode i ≠ c) : (opcodeMap.countP fun r => r.covers c) = 0 := by
  refine List.countP_eq_zero.mpr fun r hr hcovers => ?_
  obtain ⟨j, rfl⟩ := exists_row_of_mem_opcodeMap hr
  obtain ⟨i, hi⟩ := exists_encode_of_row_covers hcovers
  exact h i hi

/-- Settles O2: a word that fails a test of R73 is no instruction's, so neither a row nor the decoder takes it; any other is
the encoding of an instruction, which its own row alone covers. -/
theorem everyWordSelectsOneRowOrIsIllegal : Obligations.EveryWordSelectsOneRowOrIsIllegal := by
  intro c s
  split
  case isTrue hillegal =>
    have hno : ∀ i, encode i ≠ c := fun i hi =>
      (not_fieldsInOrder_iff_bits c).mpr hillegal (hi ▸ fieldsInOrder_encode i)
    exact ⟨countP_covers_eq_zero hno, command_of_illegal (fun i hi => hno i (encode_of_decode hi)) s⟩
  case isFalse hlegal =>
    have hfields : FieldsInOrder c := not_not.mp (mt (not_fieldsInOrder_iff_bits c).mp hlegal)
    obtain ⟨i, rfl⟩ := exists_encode_of_fieldsInOrder hfields
    exact ⟨countP_covers_encode i, i, (covers_encode_iff (row_mem_opcodeMap i)).mpr rfl, by simp [← opField_toNat],
      by simp [← argField_toNat], decode_encode i, command_of_decode (decode_encode i) s⟩

end Sys2Proof.Machine
end

section
/-! PROOF. O9 and O10: what SELECT and CONFIG load, and the words that are one (40_configuration.md R101, R103, R104). -/

namespace Sys2Proof.Machine

/-! ## The words of an opcode (30_encoding.md R73) -/

/-- Opcode and ARG determine the instruction. -/
theorem instr_eq_of_opcode_arg {i j : Instr} (hop : i.opcode = j.opcode) (harg : i.arg = j.arg) : i = j := by
  have hdispatch : some i = some j := by rw [← dispatchOp_opcode_arg i, hop, harg, dispatchOp_opcode_arg]
  exact Option.some.inj hdispatch

theorem encode_toNat_of_arg_eq_zero {i : Instr} (h : i.arg = 0) : (encode i).toNat = i.opcode.toNat := by
  have hlt : i.opcode.toNat < 4294967296 := (opcode_toNat_lt i).trans (by decide)
  simpa [encode, h] using hlt

/-- Of an opcode whose ARG is the operand, the words with both reserved fields 0 are instructions, and no other. -/
theorem argWords_of_arg_eq (op : Nat) (i : Byte → Instr) (hop : ∀ b, (i b).opcode.toNat = op) (harg : ∀ b, (i b).arg = b)
    (s : State) : Reference.argWords op i s := by
  intro c hc
  split
  case isTrue hres =>
    obtain ⟨hres0, hres1⟩ := hres
    have hword : encode (i (argField c)) = c := by
      apply word_eq_of_fields <;> apply BitVec.eq_of_toNat_eq
      · simp [hop, opField_toNat, hc]
      · simp [res0Field_toNat c, hres0]
      · simp [harg]
      · simp [res1Field_toNat c, hres1]
    have hdecode : decode c = .ok (i (argField c)) := by simpa [hword] using decode_encode (i (argField c))
    exact ⟨argField c, argField_toNat c, command_of_decode hdecode s⟩
  case isFalse hres =>
    refine command_of_illegal (fun j hj => hres ?_) s
    rw [← encode_of_decode hj, ← res0Field_toNat, ← res1Field_toNat]
    simp

/-- Of an opcode that takes no argument, the word with every other bit 0 is the instruction, and no other. -/
theorem plainWords_of_takesNoArg (op : Nat) (i : Instr) (hop : i.opcode.toNat = op) (hno : takesNoArg i.opcode = true)
    (s : State) : Reference.plainWords op i s := by
  intro c hc
  have hword : (encode i).toNat = op := (encode_toNat_of_arg_eq_zero (arg_eq_zero_of_takesNoArg hno)).trans hop
  split
  case isTrue h =>
    obtain rfl : encode i = c := BitVec.eq_of_toNat_eq (hword.trans h.symm)
    exact command_of_decode (decode_encode i) s
  case isFalse h =>
    refine command_of_illegal (fun j hj => h ?_) s
    obtain rfl := encode_of_decode hj
    have hopcode : j.opcode = i.opcode := BitVec.eq_of_toNat_eq (by rw [hop, ← hc, ← opField_toNat, opField_encode])
    have harg : j.arg = i.arg := by rw [arg_eq_zero_of_takesNoArg hno, arg_eq_zero_of_takesNoArg (hopcode ▸ hno)]
    rw [instr_eq_of_opcode_arg hopcode harg, hword]

/-! ## SELECT and CONFIG -/

@[simp] theorem tgen_getElem (sp : Spec) {i : Nat} (hi : i < 16) : (tgen sp)[i] = tgenEntry sp i := Vector.getElem_ofFn hi

theorem exec_select_of_lt {k : Byte} (hk : k.toNat < 8) (s : State) :
    exec (.select k) s = .next (loadSpec s.catalog[k.toNat] k s) := congrArg _ (dif_pos hk)

theorem exec_select_of_ge {k : Byte} (hk : 8 ≤ k.toNat) (s : State) :
    exec (.select k) s = .next (raiseError .unknownAlgorithm (encode (.select k)) s) := congrArg _ (dif_neg hk.not_gt)

theorem exec_config_of_valid {s : State} (h : s.stg.valid = true) : exec .config s = .next (loadSpec s.stg 0xFF s) :=
  congrArg _ (if_pos h)

theorem exec_config_of_not_valid {s : State} (h : ¬ s.stg.valid = true) :
    exec .config s = .next (raiseError .invalidSpec (encode .config) s) := congrArg _ (if_neg h)

/-- Settles O9: `loadSpec` of the catalog entry is the state the statement writes out. -/
theorem selectLoadsTheCatalogEntry : Obligations.SelectLoadsTheCatalogEntry := by
  intro s
  refine ⟨fun k hk => exec_select_of_lt hk s, fun k hk => exec_select_of_ge hk s,
    argWords_of_arg_eq 0x1 .select (fun _ => rfl) (fun _ => rfl) s,
    fun hcatalog => ⟨_, exec_select_of_lt (by decide) s, ?_⟩⟩
  have hentry : tgenEntry catalogRom[4] 1 = 0x00001021 := by decide
  simp only [hcatalog, loadSpec_act, loadSpec_crc, loadSpec_table, tgen_getElem]
  exact ⟨rfl, rfl, hentry⟩

/-- Settles O10: the parameter check of the statement is `Spec.valid`, on which CONFIG branches. -/
theorem configLoadsTheStagedSpec : Obligations.ConfigLoadsTheStagedSpec := by
  intro s
  refine ⟨?_, plainWords_of_takesNoArg 0x2 .config rfl rfl s,
    fun hstg => ⟨_, exec_config_of_valid (by rw [hstg]; decide), ?_⟩⟩
  · dsimp only
    split
    case isTrue h => exact exec_config_of_valid ((Spec.valid_iff _).mpr h)
    case isFalse h => exact exec_config_of_not_valid (mt (Spec.valid_iff _).mp h)
  · have hentry : tgenEntry { width := 8, reflected := false, poly := 0x07, init := 0x00, xorout := 0x00 } 1 = 0x07 := by
      decide
    simp only [hstg, loadSpec_act, loadSpec_crc, loadSpec_table, tgen_getElem, hentry, and_self]

end Sys2Proof.Machine
end

section
/-! PROOF. O24 and O25: the single-bit steps and the byte update on unbounded naturals (41_bitwise.md R120 to R122). -/

namespace Sys2Proof.Machine

/-! ## Single-bit steps -/

/-- A bit of a word, read off its number (00_scope.md R7). -/
theorem getLsbD_eq_true_iff_div_mod (s : Word) (i : Nat) : s.getLsbD i = true ↔ s.toNat / 2 ^ i % 2 = 1 := by
  simp [BitVec.getLsbD, Nat.testBit_eq_decide_div_mod_eq]

theorem stepR_toNat (s p : Word) (w : Nat) : (stepR s p w).toNat = Reference.stepR s.toNat p.toNat := by
  have hbit : s.getLsbD 0 = true ↔ s.toNat % 2 = 1 := by simpa using getLsbD_eq_true_iff_div_mod s 0
  have hshift : (s >>> 1).toNat = s.toNat / 2 := by simp [Nat.shiftRight_eq_div_pow]
  simp only [stepR, Reference.stepR, hbit]
  split
  · rw [BitVec.toNat_xor, hshift]
  · exact hshift

theorem stepN_toNat (s p : Word) {w : Nat} (hw : w ≤ 32) :
    (stepN s p w).toNat = Reference.stepN s.toNat p.toNat w := by
  have hshift : ((s <<< 1) &&& mask w).toNat = s.toNat * 2 % 2 ^ w := shiftLeft_and_mask_toNat s 1 hw
  simp only [stepN, Reference.stepN, getLsbD_eq_true_iff_div_mod]
  split
  · rw [BitVec.toNat_xor, hshift]
  · exact hshift

/-- Settles O24: only a left shift can leave the width, and the mask cuts it there. -/
theorem bitStepsMatchTheNaturals : Obligations.BitStepsMatchTheNaturals :=
  fun w s p _ hw _ _ => ⟨stepR_toNat s p w, stepN_toNat s p hw⟩

/-! ## The byte update -/

theorem bitStep_toNat {sp : Spec} (hw : sp.bits ≤ 32) (s : Word) : (sp.bitStep s).toNat =
    if sp.reflected then Reference.stepR s.toNat sp.poly.toNat else Reference.stepN s.toNat sp.poly.toNat sp.bits := by
  unfold Spec.bitStep
  split
  · exact stepR_toNat ..
  · exact stepN_toNat _ _ hw

theorem bitSteps_toNat {sp : Spec} (hw : sp.bits ≤ 32) : ∀ (n : Nat) (s : Word),
    (sp.bitSteps n s).toNat = Reference.steps sp.reflected sp.poly.toNat sp.bits n s.toNat
  | 0, _ => rfl
  | n + 1, s => by rw [Spec.bitSteps, bitSteps_toNat hw n, bitStep_toNat hw, Reference.steps]

/-- A byte placed at the top of a width up to 32 loses no bit (41_bitwise.md R122). -/
theorem byteHigh_toNat (b : Byte) {w : Nat} (hw : w ≤ 32) : (byteHigh b w).toNat = b.toNat * 2 ^ (w - 8) := by
  have hlt : b.toNat * 2 ^ (w - 8) < 2 ^ 32 :=
    calc b.toNat * 2 ^ (w - 8)
        < 2 ^ 8 * 2 ^ (w - 8) := Nat.mul_lt_mul_of_pos_right b.isLt (by positivity)
      _ ≤ 2 ^ 8 * 2 ^ 24 := Nat.mul_le_mul_left _ (Nat.pow_le_pow_right (by decide) (by omega))
  have hlow : (byteLow b).toNat = b.toNat := BitVec.toNat_setWidth_of_le (by decide)
  rw [byteHigh, BitVec.toNat_shiftLeft, Nat.shiftLeft_eq, hlow, Nat.mod_eq_of_lt hlt]

theorem placeByte_toNat {sp : Spec} (hw : sp.bits ≤ 32) (b : Byte) :
    (sp.placeByte b).toNat = if sp.reflected then b.toNat else b.toNat * 2 ^ (sp.bits - 8) := by
  unfold Spec.placeByte
  split
  · exact BitVec.toNat_setWidth_of_le (by decide)
  · exact byteHigh_toNat b hw

theorem bits_le_of_valid {sp : Spec} (h : sp.valid = true) : sp.bits ≤ 32 := by
  obtain ⟨hwidth, -⟩ := sp.valid_iff.mp h
  omega

theorem bitUpdate_toNat {sp : Spec} (hw : sp.bits ≤ 32) (s : Word) (b : Byte) : (bitUpdate sp s b).toNat =
    Reference.bitUpdate sp.bits sp.reflected sp.poly.toNat s.toNat b.toNat := by
  rw [bitUpdate, bitSteps_toNat hw, BitVec.toNat_xor, placeByte_toNat hw, Reference.bitUpdate]

/-- Settles O25: the byte enters and each step runs as on the naturals, and both keep the width. -/
theorem bitUpdateMatchesTheNaturals : Obligations.BitUpdateMatchesTheNaturals :=
  fun _ s b hvalid hs => ⟨bitUpdate_toNat (bits_le_of_valid hvalid) s b, bitUpdate_fits hvalid hs b⟩

end Sys2Proof.Machine
end

section
/-! PROOF. O11, O12, O13 and O16: INIT, UPDB, UPDR and FINAL, and the words that are one (41_bitwise.md R124 to R127). -/

namespace Sys2Proof.Machine

/-! ## The commands with a spec active -/

theorem exec_init_of_active {s : State} (h : s.act.cfgv = true) : exec .init s = .next { s with crc := s.act.init } :=
  whenConfigured_of_active h

theorem exec_updb_of_active {s : State} (h : s.act.cfgv = true) (b : Byte) :
    exec (.updb b) s = .next { s with crc := bitUpdate s.act.toSpec s.crc b } := whenConfigured_of_active h

theorem exec_updr_of_active {s : State} (h : s.act.cfgv = true) (b : Byte) :
    exec (.updr b) s = .next { s with crc := bitUpdate s.act.toSpec s.crc b } := whenConfigured_of_active h

theorem exec_final_of_active {s : State} (h : s.act.cfgv = true) :
    exec .final s = .next { s with result := s.crc ^^^ s.act.xorout } := whenConfigured_of_active h

/-- With the active spec known, INIT loads that spec's initial value. -/
theorem exec_init_of_spec {s : State} {sp : Spec} (h : s.act.cfgv = true) (hspec : s.act.toSpec = sp) :
    exec .init s = .next { s with crc := sp.init } := by rw [exec_init_of_active h, hspec]

/-- With the active spec known, FINAL XORs with that spec's value. -/
theorem exec_final_of_spec {s : State} {sp : Spec} (h : s.act.cfgv = true) (hspec : s.act.toSpec = sp) :
    exec .final s = .next { s with result := s.crc ^^^ sp.xorout } := by rw [exec_final_of_active h, hspec]

/-- Loading a spec loads its initial value, so INIT after it finds CRC as it would leave it (41_bitwise.md R124). -/
theorem exec_init_loadSpec (sp : Spec) (k : Byte) (s : State) : exec .init (loadSpec sp k s) = .next (loadSpec sp k s) :=
  exec_init_of_active rfl

/-! ## The statements -/

/-- Settles O11: `loadSpec` gives the state after SELECT and CONFIG, and the catalog rows give the two values. -/
theorem initLoadsTheInitialValue : Obligations.InitLoadsTheInitialValue := by
  intro s
  refine ⟨exec_init_of_active, whenConfigured_of_inactive, plainWords_of_takesNoArg 0x3 .init rfl rfl s, ?_, ?_,
    exec_init_of_spec, exec_init_of_spec⟩
  · intro k t hk ht
    obtain rfl := Host.Outcome.next.inj ((exec_select_of_lt hk s).symm.trans ht)
    exact exec_init_loadSpec ..
  · intro t hvalid ht
    obtain rfl := Host.Outcome.next.inj ((exec_config_of_valid hvalid).symm.trans ht)
    exact exec_init_loadSpec ..

/-- Settles O12: the two values are `bitUpdate` of the catalog's row, run. -/
theorem updbFoldsOneByte : Obligations.UpdbFoldsOneByte := by
  intro s
  refine ⟨fun b h => exec_updb_of_active h b, fun _ h => whenConfigured_of_inactive h,
    argWords_of_arg_eq 0x4 .updb (fun _ => rfl) (fun _ => rfl) s, fun h hspec hcrc => ?_, fun h hspec hcrc => ?_⟩
  · have hvalue : bitUpdate catalogRom[0] 0xFF 0xFF = 0 := by decide
    rw [exec_updb_of_active h, hspec, hcrc, hvalue]
  · have hvalue : bitUpdate catalogRom[4] 0xFFFF 0x01 = 0xF1D1 := by decide
    rw [exec_updb_of_active h, hspec, hcrc, hvalue]

/-- Settles O13: with a spec active both commands have the one effect that R126 writes out. -/
theorem updrFoldsOneByteAsUpdbDoes : Obligations.UpdrFoldsOneByteAsUpdbDoes := by
  intro s
  refine ⟨fun b h => ⟨exec_updr_of_active h b, (exec_updr_of_active h b).trans (exec_updb_of_active h b).symm⟩,
    fun _ h => whenConfigured_of_inactive h, argWords_of_arg_eq 0x5 .updr (fun _ => rfl) (fun _ => rfl) s,
    fun h hspec hcrc => ?_⟩
  have hvalue : bitUpdate catalogRom[6] 0xFFFFFFFF 0x00 = 0x2DFD1072 := by decide
  rw [exec_updr_of_active h, hspec, hcrc, hvalue]

/-- Settles O16: INIT keeps ACT, so FINAL after it runs under the same spec on its initial value. -/
theorem finalLatchesTheChecksum : Obligations.FinalLatchesTheChecksum := by
  intro s
  refine ⟨exec_final_of_active, whenConfigured_of_inactive, plainWords_of_takesNoArg 0x7 .final rfl rfl s,
    fun t h ht => ?_, fun h hspec hcrc => ?_, fun h hspec hcrc => ?_⟩
  · obtain rfl := Host.Outcome.next.inj ((exec_init_of_active h).symm.trans ht)
    exact exec_final_of_active h
  · have hvalue : (0x803893D0 : Word) ^^^ (catalogRom[6]).xorout = 0x7FC76C2F := by decide
    rw [exec_final_of_spec h hspec, hcrc, hvalue]
  · have hvalue : (0x6D : Word) ^^^ (catalogRom[1]).xorout = 0x92 := by decide
    rw [exec_final_of_spec h hspec, hcrc, hvalue]

end Sys2Proof.Machine
end

section
/-! PROOF. O15, O27 and O28: the nibble table, the table-driven update and the command UPDN (42_nibble.md R140 to R144). -/

namespace Sys2Proof.Machine

/-! ## The table -/

/-- An index placed at the top of a width up to 32 loses no bit (42_nibble.md R140). -/
theorem placeNibble_toNat {sp : Spec} (hw : sp.bits ≤ 32) {i : Nat} (hi : i < 16) :
    (sp.placeNibble i).toNat = if sp.reflected then i else i * 2 ^ (sp.bits - 4) := by
  have hmod : i % 2 ^ 32 = i := Nat.mod_eq_of_lt (by omega)
  have hlt : i * 2 ^ (sp.bits - 4) < 2 ^ 32 :=
    calc i * 2 ^ (sp.bits - 4)
        < 16 * 2 ^ (sp.bits - 4) := Nat.mul_lt_mul_of_pos_right hi (by positivity)
      _ ≤ 16 * 2 ^ 28 := Nat.mul_le_mul_left _ (Nat.pow_le_pow_right (by decide) (by omega))
  unfold Spec.placeNibble
  split
  · rw [BitVec.toNat_ofNat, hmod]
  · rw [BitVec.toNat_shiftLeft, BitVec.toNat_ofNat, hmod, Nat.shiftLeft_eq, Nat.mod_eq_of_lt hlt]

theorem four_le_bits_of_valid {sp : Spec} (h : sp.valid = true) : 4 ≤ sp.bits := by
  obtain ⟨hwidth, -⟩ := sp.valid_iff.mp h
  omega

/-- The preloaded index is within the width of a valid spec. -/
theorem placeNibble_fits {sp : Spec} (h : sp.valid = true) {i : Nat} (hi : i < 16) :
    (sp.placeNibble i).toNat < 2 ^ sp.bits := by
  have hpow : 2 ^ 4 * 2 ^ (sp.bits - 4) = 2 ^ sp.bits := pow_mul_pow_sub 2 (four_le_bits_of_valid h)
  have hpos : 0 < 2 ^ (sp.bits - 4) := by positivity
  rw [placeNibble_toNat (bits_le_of_valid h) hi, ← hpow]
  split
  · omega
  · exact Nat.mul_lt_mul_of_pos_right hi hpos

theorem tgenEntry_toNat {sp : Spec} (hw : sp.bits ≤ 32) {i : Nat} (hi : i < 16) :
    (tgenEntry sp i).toNat = Reference.tgen sp.bits sp.reflected sp.poly.toNat i := by
  rw [tgenEntry, bitSteps_toNat hw, placeNibble_toNat hw hi, Reference.tgen]

theorem tgenEntry_fits {sp : Spec} (h : sp.valid = true) {i : Nat} (hi : i < 16) :
    (tgenEntry sp i).toNat < 2 ^ sp.bits := by
  obtain ⟨-, hpoly, -⟩ := sp.valid_iff.mp h
  exact bitSteps_fits hpoly 4 (placeNibble_fits h hi)

/-- A single-bit step reads neither init nor xorout, so no number of them does. -/
theorem bitSteps_init_xorout (sp : Spec) (x y : Word) :
    ∀ (n : Nat) (s : Word), Spec.bitSteps { sp with init := x, xorout := y } n s = sp.bitSteps n s
  | 0, _ => rfl
  | n + 1, s => bitSteps_init_xorout sp x y n (sp.bitStep s)

theorem tgen_init_xorout (sp : Spec) (x y : Word) : tgen { sp with init := x, xorout := y } = tgen sp := by
  refine Vector.ext fun i hi => ?_
  rw [tgen_getElem, tgen_getElem]
  exact bitSteps_init_xorout sp x y 4 (sp.placeNibble i)

/-- Settles O27: the index is placed and each step runs as on the naturals, and both keep the width. -/
theorem tableEntriesMatchTheNaturals : Obligations.TableEntriesMatchTheNaturals := by
  refine fun sp hvalid => ⟨fun i hi => ?_, tgen_init_xorout sp⟩
  rw [tgen_getElem]
  exact ⟨tgenEntry_toNat (bits_le_of_valid hvalid) hi, tgenEntry_fits hvalid hi⟩

/-! ## The table-driven update -/

/-- A table step runs as on the naturals with a table `t` of the same entries (42_nibble.md R142). -/
theorem nibStep_toNat {sp : Spec} (hw : sp.bits ≤ 32) {T : Vector Word 16} {t : Nat → Nat}
    (ht : ∀ i : Fin 16, (T.get i).toNat = t i) (s : Word) :
    (nibStep sp T s).toNat = Reference.nibStep sp.bits sp.reflected t s.toNat := by
  have hlow : (lowNibble s : Nat) = s.toNat % 16 := by simp [lowNibble]
  have htop : (topNibble s sp.bits : Nat) = s.toNat / 2 ^ (sp.bits - 4) % 16 := by
    simp [topNibble, Nat.shiftRight_eq_div_pow]
  have hright : (s >>> 4).toNat = s.toNat / 16 := by simp [Nat.shiftRight_eq_div_pow]
  have hleft : ((s <<< 4) &&& mask sp.bits).toNat = s.toNat * 16 % 2 ^ sp.bits := shiftLeft_and_mask_toNat s 4 hw
  unfold nibStep Reference.nibStep
  split
  · rw [BitVec.toNat_xor, ht, hright, hlow]
  · rw [BitVec.toNat_xor, ht, hleft, htop]

theorem nibStep_fits {sp : Spec} {T : Vector Word 16} (hT : ∀ i : Fin 16, (T.get i).toNat < 2 ^ sp.bits) {s : Word}
    (hs : s.toNat < 2 ^ sp.bits) : (nibStep sp T s).toNat < 2 ^ sp.bits := by
  unfold nibStep
  split
  · have hshift : (s >>> 4).toNat < 2 ^ sp.bits := by
      rw [BitVec.toNat_ushiftRight, Nat.shiftRight_eq_div_pow]
      omega
    exact xor_fits hshift (hT _)
  · exact xor_fits (and_mask_fits _ _) (hT _)

theorem nibUpdate_toNat {sp : Spec} (hw : sp.bits ≤ 32) {T : Vector Word 16} {t : Nat → Nat}
    (ht : ∀ i : Fin 16, (T.get i).toNat = t i) (s : Word) (b : Byte) :
    (nibUpdate sp T s b).toNat = Reference.nibUpdate sp.bits sp.reflected t s.toNat b.toNat := by
  rw [nibUpdate, nibStep_toNat hw ht, nibStep_toNat hw ht, BitVec.toNat_xor, placeByte_toNat hw, Reference.nibUpdate]

theorem nibUpdate_fits {sp : Spec} (h : sp.valid = true) {T : Vector Word 16}
    (hT : ∀ i : Fin 16, (T.get i).toNat < 2 ^ sp.bits) {s : Word} (hs : s.toNat < 2 ^ sp.bits) (b : Byte) :
    (nibUpdate sp T s b).toNat < 2 ^ sp.bits :=
  nibStep_fits hT (nibStep_fits hT (xor_fits hs (placeByte_fits h b)))

/-- Settles O28: the byte enters and both table steps run as on the naturals, with the index of each in the state before
its shift. -/
theorem nibUpdateMatchesTheNaturals : Obligations.NibUpdateMatchesTheNaturals := by
  refine fun sp T s b hvalid hs hT => ⟨nibUpdate_toNat (bits_le_of_valid hvalid) (fun i => ?_) s b,
    nibUpdate_fits hvalid (fun i => hT i i.isLt) hs b⟩
  rw [dif_pos i.isLt]
  rfl

/-! ## Agreement with the bit-serial update (42_nibble.md R144) -/

/-- Four single-bit steps, with what a nibble at its place contributes split off. -/
theorem bitSteps_four_split (sp : Spec) (s : Word) (i : Nat) :
    sp.bitSteps 4 s = sp.bitSteps 4 (s ^^^ sp.placeNibble i) ^^^ tgenEntry sp i := by
  rw [tgenEntry, ← bitSteps_xor, BitVec.xor_assoc, BitVec.xor_self, BitVec.xor_zero]

theorem ofNat_lowNibble (s : Word) : BitVec.ofNat 32 (lowNibble s) = (s.extractLsb' 0 4).setWidth 32 :=
  BitVec.ofNat_toNat ..

theorem ofNat_topNibble (s : Word) (w : Nat) :
    BitVec.ofNat 32 (topNibble s w) = (s.extractLsb' (w - 4) 4).setWidth 32 := BitVec.ofNat_toNat ..

/-- Placed as an index, the low nibble is bits [3:0] of the value. -/
theorem getLsbD_placeNibble_lowNibble {sp : Spec} (hr : sp.reflected = true) (s : Word) (i : Nat) :
    (sp.placeNibble (lowNibble s)).getLsbD i = (decide (i < 4) && s.getLsbD i) := by
  rw [Spec.placeNibble, if_pos hr, ofNat_lowNibble, BitVec.getLsbD_setWidth, BitVec.getLsbD_extractLsb', Nat.zero_add]
  by_cases hi : i < 4
  · have hi32 : i < 32 := by omega
    simp [hi, hi32]
  · simp [hi]

/-- Placed as an index, the top nibble of a value of the width is its bits from w - 4 on. -/
theorem getLsbD_placeNibble_topNibble {sp : Spec} (hr : ¬ sp.reflected = true) (hw : sp.bits ≤ 32) {s : Word}
    (hs : s.toNat < 2 ^ sp.bits) (i : Nat) :
    (sp.placeNibble (topNibble s sp.bits)).getLsbD i = (decide (sp.bits - 4 ≤ i) && s.getLsbD i) := by
  have hhigh := (fits_iff_getLsbD s sp.bits).mp hs
  rw [Spec.placeNibble, if_neg hr, ofNat_topNibble, BitVec.getLsbD_shiftLeft, BitVec.getLsbD_setWidth,
    BitVec.getLsbD_extractLsb']
  by_cases hlow : i < sp.bits - 4
  · simp [hlow, hlow.not_ge, -tsub_le_iff_right]
  · rw [Nat.add_sub_of_le (Nat.not_lt.mp hlow)]
    by_cases hi : i < sp.bits
    · have hi32 : i < 32 := by omega
      have hindex : i - (sp.bits - 4) < 4 := by omega
      have hindex32 : i - (sp.bits - 4) < 32 := by omega
      simp [hlow, Nat.not_lt.mp hlow, hi32, hindex, hindex32]
    · simp [hhigh i (Nat.not_lt.mp hi)]

/-- Without its low nibble a value is shifted by four reflected steps. -/
theorem bitSteps_four_of_reflected {sp : Spec} (hr : sp.reflected = true) (s : Word) :
    sp.bitSteps 4 (s ^^^ sp.placeNibble (lowNibble s)) = s >>> 4 := by
  have hplaced := getLsbD_placeNibble_lowNibble hr s
  rw [bitSteps_reflected_shift hr 4 _ fun i hi => by simp [hplaced, hi]]
  refine BitVec.eq_of_getLsbD_eq fun i _ => ?_
  simp [hplaced]

/-- Without its top nibble a value is shifted by four non-reflected steps. -/
theorem bitSteps_four_of_normal {sp : Spec} (hr : ¬ sp.reflected = true) (hvalid : sp.valid = true) {s : Word}
    (hs : s.toNat < 2 ^ sp.bits) :
    sp.bitSteps 4 (s ^^^ sp.placeNibble (topNibble s sp.bits)) = (s <<< 4) &&& mask sp.bits := by
  have h4 := four_le_bits_of_valid hvalid
  have hw := bits_le_of_valid hvalid
  have hplaced := getLsbD_placeNibble_topNibble hr hw hs
  have hrest := xor_fits hs (placeNibble_fits hvalid (topNibble s sp.bits).isLt)
  rw [bitSteps_normal_shift (Bool.eq_false_of_not_eq_true hr) hw 4 _ h4 hrest fun i hi => by simp [hplaced, hi]]
  refine BitVec.eq_of_getLsbD_eq fun i _ => ?_
  simp only [BitVec.getLsbD_and, getLsbD_mask, BitVec.getLsbD_shiftLeft, BitVec.getLsbD_xor, hplaced]
  obtain hnew | hcut | hkept : i < 4 ∨ ¬ i < sp.bits ∨ ¬ sp.bits - 4 ≤ i - 4 := by omega
  · simp [hnew]
  · simp [hcut]
  · simp [hkept]

/-- A step with the spec's own table is four single-bit steps: the nibble that leaves the register contributes its table
entry, and the rest is shifted. -/
theorem nibStep_tgen {sp : Spec} (hvalid : sp.valid = true) {s : Word} (hs : s.toNat < 2 ^ sp.bits) :
    nibStep sp (tgen sp) s = sp.bitSteps 4 s := by
  unfold nibStep
  split
  case isTrue hr => rw [tgen_get, bitSteps_four_split sp s (lowNibble s), bitSteps_four_of_reflected hr]
  case isFalse hr =>
    rw [tgen_get, bitSteps_four_split sp s (topNibble s sp.bits),
      bitSteps_four_of_normal hr hvalid hs]

theorem nibUpdate_tgen {sp : Spec} (hvalid : sp.valid = true) {s : Word} (hs : s.toNat < 2 ^ sp.bits) (b : Byte) :
    nibUpdate sp (tgen sp) s b = bitUpdate sp s b := by
  obtain ⟨-, hpoly, -⟩ := sp.valid_iff.mp hvalid
  have hentered := xor_fits hs (placeByte_fits hvalid b)
  rw [nibUpdate, nibStep_tgen hvalid hentered, nibStep_tgen hvalid (bitSteps_fits hpoly 4 hentered), bitUpdate_eq]

/-! ## UPDN -/

theorem exec_updn_of_active {s : State} (h : s.act.cfgv = true) (b : Byte) :
    exec (.updn b) s = .next { s with crc := nibUpdate s.act.toSpec s.table s.crc b } := whenConfigured_of_active h

/-- Under the invariant TABLE is the active spec's and CRC is within its width, so UPDN is UPDB (41_bitwise.md R123). -/
theorem exec_updn_eq_updb {s : State} (hinv : BlockInv s) (h : s.act.cfgv = true) (b : Byte) :
    exec (.updn b) s = exec (.updb b) s := by
  obtain ⟨hact, -⟩ := hinv.act
  obtain ⟨hvalid, -⟩ := hact h
  obtain ⟨htable, -⟩ := hinv.table
  have hcrc : s.crc.toNat < 2 ^ s.act.bits := fits_iff_and_not_mask.mp (hinv.crc h)
  rw [exec_updn_of_active h, exec_updb_of_active h, htable h, nibUpdate_tgen hvalid hcrc]

@[simp] theorem placeByte_zero (sp : Spec) : sp.placeByte 0 = 0 := by simpa using placeByte_xor sp 0 0

@[simp] theorem bitUpdate_zero (sp : Spec) : bitUpdate sp 0 0 = 0 := by
  rw [bitUpdate, placeByte_zero, BitVec.xor_self]
  exact bitSteps_zero sp 8

/-- Settles O15: under the invariant the corner cases and the two values are those of `bitUpdate`. -/
theorem updnFoldsOneByteByTable : Obligations.UpdnFoldsOneByteByTable := by
  intro s
  refine ⟨fun b h => exec_updn_of_active h b, fun _ h => whenConfigured_of_inactive h,
    argWords_of_arg_eq 0x6 .updn (fun _ => rfl) (fun _ => rfl) s, fun hinv h hcrc => ?_,
    fun b hinv h _ => exec_updn_eq_updb hinv h b, fun hinv h hspec hcrc => ?_, fun hinv h hspec hcrc => ?_⟩
  · rw [exec_updn_eq_updb hinv h, exec_updb_of_active h, hcrc, bitUpdate_zero, ← hcrc]
  · have hvalue : bitUpdate catalogRom[6] 0xFFFFFFFF 0xFF = 0x00FFFFFF := by decide
    rw [exec_updn_eq_updb hinv h, exec_updb_of_active h, hspec, hcrc, hvalue]
  · have hvalue : bitUpdate catalogRom[4] 0xFFFF 0x01 = 0xF1D1 := by decide
    rw [exec_updn_eq_updb hinv h, exec_updb_of_active h, hspec, hcrc, hvalue]

end Sys2Proof.Machine
end

section
/-! PROOF. O7 and O8: NOP and CLRERR, and the words that are one (43_control.md R160, R161). -/

namespace Sys2Proof.Machine

/-! ## The record of errors -/

/-- With no error recorded there is nothing to clear. -/
theorem clearErrors_of_clear {s : State} (herr : s.err = 0) (heovf : s.eovf = false) (herrcmd : s.errcmd = 0) :
    clearErrors s = s := by
  rw [clearErrors, ← herr, ← heovf, ← herrcmd]

/-- Clearing the record masks STATUS to SEL and CFGV (10_state.md R29). -/
theorem statusWord_clearErrors (s : State) : statusWord (clearErrors s) = statusWord s &&& 0x0000FF01 := by
  have hfields : (0#16 ++ s.act.sel ++ s.err ++ 0#2 ++ BitVec.ofBool s.eovf ++ BitVec.ofBool s.act.cfgv) &&&
      (0#16 ++ BitVec.allOnes 8 ++ 0#4 ++ 0#2 ++ 0#1 ++ BitVec.allOnes 1) =
        0#16 ++ s.act.sel ++ 0#4 ++ 0#2 ++ 0#1 ++ BitVec.ofBool s.act.cfgv := by
    simp only [BitVec.and_append, BitVec.and_zero, BitVec.and_allOnes]
  exact hfields.symm

/-! ## Ill-formed words of an opcode without an argument -/

/-- After an error an ill-formed word of such an opcode only sets EOVF (60_exceptions.md R203). -/
theorem command_of_plainWords_of_recorded {op : Nat} {i : Instr} {s : State} (hwords : Reference.plainWords op i s) {c : Word}
    (hop : Reference.bits c 3 0 = op) (hne : c.toNat ≠ op) (herr : s.err ≠ 0) :
    command c s = .next { s with eovf := true } := by
  have hillegal : command c s = .next (raiseError .illegalCommand c s) := by simpa only [if_neg hne] using hwords c hop
  rw [hillegal, raiseError_of_recorded _ _ _ herr]

/-! ## NOP and CLRERR -/

theorem exec_nop (s : State) : exec .nop s = .next s := rfl

theorem exec_clrerr (s : State) : exec .clrerr s = .next (clearErrors s) := rfl

/-- Settles O7: NOP takes no argument, so its opcode has one word. -/
theorem nopWritesNothing : Obligations.NopWritesNothing :=
  fun s => ⟨exec_nop s, plainWords_of_takesNoArg 0x0 .nop rfl rfl s⟩

/-- Settles O8: CLRERR is `clearErrors`, an ill-formed word of its opcode raises the error of any other such word, and the
STATUS of the example is masked. -/
theorem clrerrClearsTheErrorRecord : Obligations.ClrerrClearsTheErrorRecord := by
  intro s
  have hwords : Reference.plainWords 0x8 .clrerr s := plainWords_of_takesNoArg 0x8 .clrerr rfl rfl s
  refine ⟨exec_clrerr s, hwords, fun c hop hne herr => command_of_plainWords_of_recorded hwords hop hne herr,
    fun herr heovf herrcmd => ?_, fun hstatus => ⟨_, exec_clrerr s, ?_⟩⟩
  · rw [exec_clrerr, clearErrors_of_clear herr heovf herrcmd]
  · rw [statusWord_clearErrors, hstatus]
    rfl

end Sys2Proof.Machine
end

section
/-! PROOF. O19, O20 and O21: how an error is recorded, which error a command reports, and which commands need an active spec
(60_exceptions.md R200 to R203). -/

namespace Sys2Proof.Machine

/-! ## Recording an error -/

/-- The codes of 60_exceptions.md R200, read as a table. -/
theorem code_of_mem_table {e : ErrorKind} {code : BitVec 4} (h : (e, code) ∈
    [(ErrorKind.invalidSpec, 1#4), (.unknownAlgorithm, 2#4), (.notConfigured, 3#4), (.illegalCommand, 4#4)]) :
    e.code = code := by
  cases e <;> simpa [ErrorKind.code, eq_comm] using h

/-- Settles O19: the two cases of recording an error, with its code read from the table. -/
theorem errorsAreRecordedOnce : Obligations.ErrorsAreRecordedOnce := by
  intro c s e code hcode
  obtain rfl := code_of_mem_table hcode
  exact ⟨raiseError_of_clear e c s, raiseError_of_recorded e c s⟩

/-- ERR takes no code but that of the error raised. -/
theorem raiseError_err_ne {e : ErrorKind} {s : State} {n : BitVec 4} (he : e.code ≠ n) (hs : s.err ≠ n) (c : Word) :
    (raiseError e c s).err ≠ n := by
  by_cases hclear : s.err = 0
  · rwa [raiseError_of_clear e c s hclear]
  · rwa [raiseError_of_recorded e c s hclear]

/-! ## The outcome of a command by its own check -/

/-- A command whose own check passes leaves ERR, EOVF and ERRCMD, unless it is the one that clears them. -/
theorem exec_keeps_record {i : Instr} {s t : State} (hpass : ownError i s = none) (hi : i ≠ .clrerr)
    (h : exec i s = .next t) : t.err = s.err ∧ t.eovf = s.eovf ∧ t.errcmd = s.errcmd := by
  cases i with
  | nop =>
    obtain rfl := Host.Outcome.next.inj h
    exact ⟨rfl, rfl, rfl⟩
  | select k =>
    obtain ⟨-, rfl⟩ | ⟨hk, -⟩ := execSelect_cases h
    · exact ⟨rfl, rfl, rfl⟩
    · simp [ownError, hk] at hpass
  | config =>
    obtain ⟨-, rfl⟩ | ⟨hvalid, -⟩ := execConfig_cases h
    · exact ⟨rfl, rfl, rfl⟩
    · simp [ownError, hvalid] at hpass
  | init | updb | updr | updn | final =>
    obtain ⟨-, rfl⟩ | ⟨hcfgv, -⟩ := whenConfigured_cases h
    · exact ⟨rfl, rfl, rfl⟩
    · simp [ownError, hcfgv] at hpass
  | clrerr => exact absurd rfl hi

/-- Settles O20: the decoder's test comes first, and an instruction's outcome follows its own check; its word is the one that
was decoded. -/
theorem commandsReportOneErrorInPriority : Obligations.CommandsReportOneErrorInPriority := by
  intro c s
  refine ⟨fun hillegal => command_of_illegal hillegal s, fun i e hdec herr => ?_, fun i hdec hpass => ?_⟩
  · rw [command_of_decode hdec, exec_of_ownError herr, encode_of_decode hdec]
  · obtain ⟨t, ht⟩ := exec_next_exists i s
    exact ⟨t, (command_of_decode hdec s).trans ht, fun hi => exec_keeps_record hpass hi ht⟩

/-! ## NotConfigured -/

/-- A command brings ERR to no code but 0 and that of the error its own check finds. -/
theorem exec_err_ne {i : Instr} {s t : State} {n : BitVec 4} (hown : ∀ e, ownError i s = some e → e.code ≠ n) (hn : n ≠ 0)
    (h : exec i s = .next t) (hs : s.err ≠ n) : t.err ≠ n := by
  cases hcheck : ownError i s with
  | some e =>
    obtain rfl := Host.Outcome.next.inj ((exec_of_ownError hcheck).symm.trans h)
    exact raiseError_err_ne (hown e hcheck) hs _
  | none =>
    by_cases hi : i = .clrerr
    · obtain rfl := hi
      obtain rfl := Host.Outcome.next.inj ((exec_clrerr s).symm.trans h)
      exact hn.symm
    · obtain ⟨herr, -⟩ := exec_keeps_record hcheck hi h
      rwa [herr]

/-- The checks of NOP, CLRERR, CONFIG and SELECT find no error of code 3. -/
theorem ownError_code_ne_three {i : Instr} (hi : i = .nop ∨ i = .clrerr ∨ i = .config ∨ ∃ k, i = .select k) (s : State)
    (e : ErrorKind) (h : ownError i s = some e) : e.code ≠ 3 := by
  obtain rfl | rfl | rfl | ⟨k, rfl⟩ := hi
  · cases h
  · cases h
  · obtain ⟨-, rfl⟩ : ¬ s.stg.valid = true ∧ .invalidSpec = e := by simpa [ownError] using h
    decide
  · obtain ⟨-, rfl⟩ : 8 ≤ k.toNat ∧ .unknownAlgorithm = e := by simpa [ownError] using h
    decide

/-- Settles O21: the five commands share the test for an active spec; the checks of the other four find other errors; a
register write leaves ERR, and one to CRC has the same test for a spec. -/
theorem commandsThatNeedASpecRaiseNotConfigured : Obligations.CommandsThatNeedASpecRaiseNotConfigured := by
  refine ⟨fun s i h hi => ?_, fun s t i hi h => exec_err_ne (ownError_code_ne_three hi s) (by decide) h,
    fun s off v => ⟨writeRegister_err off v s, fun h => writeCrc_of_inactive h v⟩⟩
  obtain rfl | rfl | ⟨b, rfl | rfl | rfl⟩ := hi <;> exact whenConfigured_of_inactive h

end Sys2Proof.Machine
end

section
/-! PROOF. O1 and O3: decoding and encoding agree (30_encoding.md R72, R73). -/

namespace Sys2Proof.Machine

/-- Settles O1: the two laws of the decoder, each way. -/
theorem decodeAndEncodeAgree : Obligations.DecodeAndEncodeAgree :=
  ⟨decode_encode, fun _ _ h => encode_of_decode h⟩

/-- Settles O3: each written word is the encoding of its instruction. -/
theorem writtenOutWordsDecode : Obligations.WrittenOutWordsDecode :=
  ⟨decode_encode .nop, decode_encode (.select 0x81), decode_encode .config, decode_encode .init, decode_encode (.updb 0xA5),
    decode_encode (.updr 0x3E), decode_encode (.updn 0x01), decode_encode .final, decode_encode .clrerr⟩

end Sys2Proof.Machine
end

section
/-! PROOF. O4, O5, O6, O34, O37, O48, O49 and O51: what one step does (20_memory.md R53 to R56, R62; 70_reset_and_hazards.md
R230, R237). -/

namespace Sys2Proof.Machine

/-! ## The outcomes of a command and of a step -/

/-- A word is an instruction's or decodes to none. -/
theorem encode_or_illegal (c : Word) : (∃ i, c = encode i) ∨ ∀ i, decode c ≠ .ok i := by
  by_cases hdecode : ∃ i, decode c = .ok i
  · obtain ⟨i, hi⟩ := hdecode
    exact .inl ⟨i, (encode_of_decode hi).symm⟩
  · exact .inr (not_exists.mp hdecode)

theorem command_encode (i : Instr) (s : State) : command (encode i) s = exec i s := command_of_decode (decode_encode i) s

/-- What a command leaves of `s`: its own check fails and the error is recorded, or it has its one effect. -/
inductive CommandLeaves (s : State) : Instr → State → Prop
  | error {i : Instr} {e : ErrorKind} (hown : ownError i s = some e) : CommandLeaves s i (raiseError e (encode i) s)
  | nop : CommandLeaves s .nop s
  | select {k : Byte} (hk : k.toNat < 8) : CommandLeaves s (.select k) (loadSpec s.catalog[k.toNat] k s)
  | config (hvalid : s.stg.valid = true) : CommandLeaves s .config (loadSpec s.stg 0xFF s)
  | init (hactive : s.act.cfgv = true) : CommandLeaves s .init { s with crc := s.act.init }
  | updb (b : Byte) (hactive : s.act.cfgv = true) :
      CommandLeaves s (.updb b) { s with crc := bitUpdate s.act.toSpec s.crc b }
  | updr (b : Byte) (hactive : s.act.cfgv = true) :
      CommandLeaves s (.updr b) { s with crc := bitUpdate s.act.toSpec s.crc b }
  | updn (b : Byte) (hactive : s.act.cfgv = true) :
      CommandLeaves s (.updn b) { s with crc := nibUpdate s.act.toSpec s.table s.crc b }
  | final (hactive : s.act.cfgv = true) : CommandLeaves s .final { s with result := s.crc ^^^ s.act.xorout }
  | clrerr : CommandLeaves s .clrerr (clearErrors s)

/-- A command that needs an active spec has its effect, or reports NotConfigured (60_exceptions.md R201). -/
theorem commandLeaves_of_whenConfigured {i : Instr} {s t u : State}
    (hcheck : ownError i s = if s.act.cfgv then none else some .notConfigured)
    (heffect : s.act.cfgv = true → CommandLeaves s i u) (h : whenConfigured (encode i) s u = .next t) :
    CommandLeaves s i t := by
  obtain ⟨hactive, rfl⟩ | ⟨hinactive, rfl⟩ := whenConfigured_cases h
  · exact heffect hactive
  · exact .error (by simp [hcheck, hinactive])

theorem commandLeaves_of_exec {i : Instr} {s t : State} (h : exec i s = .next t) : CommandLeaves s i t := by
  cases i with
  | nop =>
    obtain rfl := Host.Outcome.next.inj h
    exact .nop
  | select k =>
    obtain ⟨hk, rfl⟩ | ⟨hk, rfl⟩ := execSelect_cases h
    · exact .select hk
    · exact .error (if_neg hk)
  | config =>
    obtain ⟨hvalid, rfl⟩ | ⟨hvalid, rfl⟩ := execConfig_cases h
    · exact .config hvalid
    · exact .error (if_neg (by simp [hvalid]))
  | init => exact commandLeaves_of_whenConfigured rfl .init h
  | updb b => exact commandLeaves_of_whenConfigured rfl (.updb b) h
  | updr b => exact commandLeaves_of_whenConfigured rfl (.updr b) h
  | updn b => exact commandLeaves_of_whenConfigured rfl (.updn b) h
  | final => exact commandLeaves_of_whenConfigured rfl .final h
  | clrerr =>
    obtain rfl := Host.Outcome.next.inj h
    exact .clrerr

/-- What a step leaves of `s`: nothing waits, or the oldest input is a reset, an admitted read, a write to a register, a word
that is no command, or an instruction. -/
inductive StepLeaves (s : State) : State → Prop
  | idle (hpending : s.pending = []) : StepLeaves s s
  | reset {rest : List Input} (hpending : s.pending = .reset :: rest) : StepLeaves s (resetBlock { s with pending := rest })
  | read {off : Nat} {rest : List Input} (hpending : s.pending = .read off 4 :: rest) :
      StepLeaves s { s with pending := rest, reply := .data (memRead off s) }
  | write {off : Nat} {v : Word} {rest : List Input} (hpending : s.pending = .write off 4 v :: rest) :
      StepLeaves s { writeRegister off v { s with pending := rest } with reply := .ack }
  | illegal {c : Word} {rest : List Input} (hpending : s.pending = cmdWrite c :: rest) :
      StepLeaves s { raiseError .illegalCommand c { s with pending := rest } with reply := .ack }
  | command {i : Instr} {u : State} {rest : List Input} (hpending : s.pending = issueCommand i :: rest)
      (hexec : exec i { s with pending := rest } = .next u) : StepLeaves s { u with reply := .ack }

theorem stepLeaves_of_step {s t : State} (h : step s = .next t) : StepLeaves s t := by
  obtain ⟨hpending, rfl⟩ | ⟨x, rest, hpending, hserve⟩ := step_cases h
  · exact .idle hpending
  · obtain ⟨rfl, rfl⟩ | ⟨off, rfl, -, rfl⟩ | ⟨off, v, rfl, -, -, rfl⟩ | ⟨c, u, rfl, hcommand, rfl⟩ := serve_cases hserve
    · exact .reset hpending
    · exact .read hpending
    · exact .write hpending
    · obtain ⟨i, rfl⟩ | hillegal := encode_or_illegal c
      · exact .command hpending ((command_encode i _).symm.trans hcommand)
      · obtain rfl := Host.Outcome.next.inj ((command_of_illegal hillegal _).symm.trans hcommand)
        exact .illegal hpending

/-! ## Commands -/

theorem command_next_exists (c : Word) (s : State) : ∃ t, command c s = .next t := by
  obtain ⟨i, rfl⟩ | hillegal := encode_or_illegal c
  · rw [command_encode]
    exact exec_next_exists i s
  · exact ⟨_, command_of_illegal hillegal s⟩

/-- Settles O6: an instruction ends in a next state, and a word is an instruction or only records an error. -/
theorem everyCommandFinishes : Obligations.EveryCommandFinishes := ⟨exec_next_exists, command_next_exists⟩

theorem serve_cmdWrite {s u : State} {c : Word} (h : command c s = .next u) :
    serve (cmdWrite c) s = .next { u with reply := .ack } := by
  simp [cmdWrite, serve, admitted, memWrite, h, withReply]

theorem serve_issueCommand {s u : State} {i : Instr} (h : exec i s = .next u) :
    serve (issueCommand i) s = .next { u with reply := .ack } :=
  serve_cmdWrite ((command_encode i s).trans h)

theorem step_of_issueCommand {s u : State} {i : Instr} {rest : List Input} (hpending : s.pending = issueCommand i :: rest)
    (h : exec i { s with pending := rest } = .next u) : step s = .next { u with reply := .ack } :=
  (step_of_pending hpending).trans (serve_issueCommand h)

/-- The bits of a table row that decode are those of one word. -/
theorem decode_of_decodeTableWord {nbits w : Nat} {i : Instr} (h : decodeTableWord nbits w = some i) :
    decode (BitVec.ofNat 32 (w % 2 ^ nbits)) = .ok i := by
  rw [decodeTableWord, Option.ite_none_right_eq_some] at h
  obtain ⟨-, hdecode⟩ := h
  cases hword : decode (BitVec.ofNat 32 (w % 2 ^ nbits)) with
  | error => simp [hword, Except.toOption] at hdecode
  | ok j => simpa [hword, Except.toOption] using hdecode

/-- Settles O5: the placed word is served first, and the inputs that waited are those behind it. -/
theorem withFetchWordRunsTheWord : Obligations.WithFetchWordRunsTheWord :=
  fun s _ w _ hdecode hexec =>
    step_of_cmdWrite (s := s.withFetchWord 32 w) rfl ((command_of_decode (decode_of_decodeTableWord hdecode) s).trans hexec)

/-! ## Accesses -/

theorem admitted_iff {off bytes : Nat} : admitted off bytes = true ↔ bytes = 4 ∧ off % 4 = 0 ∧ off < 0x80 := by
  simp [admitted, and_assoc]

theorem step_of_read {s : State} {off : Nat} {rest : List Input} (ha : admitted off 4 = true)
    (hpending : s.pending = .read off 4 :: rest) :
    step s = .next { s with pending := rest, reply := .data (memRead off s) } := by
  rw [step_of_pending hpending, serve, if_pos ha]
  rfl

theorem step_of_write {s t : State} {off : Nat} {v : Word} {rest : List Input} (ha : admitted off 4 = true)
    (hpending : s.pending = .write off 4 v :: rest) (h : memWrite off v { s with pending := rest } = .next t) :
    step s = .next { t with reply := .ack } := by
  rw [step_of_pending hpending, serve, if_pos ha, h, withReply]

theorem step_of_reset {s : State} {rest : List Input} (hpending : s.pending = .reset :: rest) :
    step s = .next (resetBlock { s with pending := rest }) := step_of_pending hpending

theorem step_of_idle {s : State} (hpending : s.pending = []) : step s = .next s := by
  rw [step, serveNext, hpending]

theorem memWrite_next_exists (off : Nat) (v : Word) (s : State) : ∃ t, memWrite off v s = .next t := by
  unfold memWrite
  split
  · exact command_next_exists v s
  · exact ⟨_, rfl⟩

/-- Settles O37: a read and a write that are admitted are served by the cases of `serve`. -/
theorem admittedAccessesAreServed : Obligations.AdmittedAccessesAreServed := by
  intro s off rest hoff hlt
  have ha := admitted_iff.mpr ⟨rfl, hoff, hlt⟩
  exact ⟨step_of_read ha, fun v t => step_of_write ha⟩

/-- Settles O4: a CMD write is served by the command of its word, and CMD reads 0. -/
theorem cmdWriteStepRunsTheDecodedCommand : Obligations.CmdWriteStepRunsTheDecodedCommand := by
  intro s c rest hpending
  refine ⟨fun i t hdecode hexec => step_of_cmdWrite hpending ((command_of_decode hdecode _).trans hexec),
    fun hillegal => step_of_cmdWrite hpending (command_of_illegal hillegal _), fun u hu => step_of_read rfl hu⟩

/-- Settles O34: `admitted` is the test of the first clause, and each input of the second has its step. -/
theorem onlyUnadmittedAccessesAreRefused : Obligations.OnlyUnadmittedAccessesAreRefused := by
  refine ⟨fun s off bytes v rest hno hpending => ?_, fun s off v rest hoff hlt hpending => ?_⟩
  · have ha : ¬ admitted off bytes = true := by rw [admitted_iff]; omega
    obtain hpending | hpending := hpending <;> rw [step_of_pending hpending, serve, if_neg ha]
  · have ha := admitted_iff.mpr ⟨rfl, hoff, hlt⟩
    obtain hread | hwrite | hreset | hidle := hpending
    · exact ⟨_, step_of_read ha hread⟩
    · obtain ⟨t, ht⟩ := memWrite_next_exists off v { s with pending := rest }
      exact ⟨_, step_of_write ha hwrite ht⟩
    · exact ⟨_, step_of_reset hreset⟩
    · exact ⟨s, step_of_idle hidle⟩

/-! ## What every step does to the queue and the catalog -/

/-- Settles O48: no case of a step writes the catalog. -/
theorem catalogIsNeverWritten : Obligations.CatalogIsNeverWritten := by
  intro s t h
  cases stepLeaves_of_step h with
  | idle | reset | read => rfl
  | write => exact writeRegister_catalog ..
  | illegal => exact raiseError_catalog ..
  | command _ hexec =>
    obtain ⟨-, -, -, hcatalog⟩ := exec_keeps hexec
    exact hcatalog

/-- A step that has an input to serve leaves the inputs behind it. -/
theorem step_pending {s t : State} {x : Input} {rest : List Input} (hpending : s.pending = x :: rest)
    (h : step s = .next t) : t.pending = rest := by
  rw [step_of_pending hpending] at h
  obtain ⟨-, rfl⟩ | ⟨off, -, -, rfl⟩ | ⟨off, v, -, -, -, rfl⟩ | ⟨c, u, -, hcommand, rfl⟩ := serve_cases h
  · rfl
  · rfl
  · exact writeRegister_pending ..
  · obtain ⟨hkeeps, -⟩ := command_keeps hcommand
    exact hkeeps

/-- Settles O49: serving an input leaves those behind it. -/
theorem inputsAreServedInOrder : Obligations.InputsAreServedInOrder :=
  ⟨fun _ _ _ _ hpending h => step_pending hpending h, fun _ => step_of_idle⟩

/-- Settles O51: a reset input is served by `resetBlock`. -/
theorem resetInputResetsTheBlock : Obligations.ResetInputResetsTheBlock := fun _ _ => step_of_reset

end Sys2Proof.Machine
end

section
/-! PROOF. O52 and O53: the invariant of the block holds after reset and every step keeps it (10_state.md R22, R24, R25, R32,
R33; 60_exceptions.md R200, R203). -/

namespace Sys2Proof.Machine

/-! ## What follows from the invariant -/

theorem BlockInv.valid {s : State} (hinv : BlockInv s) (h : s.act.cfgv = true) : s.act.toSpec.valid = true := by
  obtain ⟨hactive, -⟩ := hinv.act
  obtain ⟨hvalid, -⟩ := hactive h
  exact hvalid

theorem BlockInv.crc_fits {s : State} (hinv : BlockInv s) (h : s.act.cfgv = true) : s.crc.toNat < 2 ^ s.act.bits :=
  fits_iff_and_not_mask.mp (hinv.crc h)

theorem BlockInv.table_eq {s : State} (hinv : BlockInv s) (h : s.act.cfgv = true) : s.table = tgen s.act.toSpec :=
  hinv.table.1 h

/-- The invariant gives the two engines one update (42_nibble.md R144). -/
theorem BlockInv.nibUpdate_eq {s : State} (hinv : BlockInv s) (h : s.act.cfgv = true) (b : Byte) :
    nibUpdate s.act.toSpec s.table s.crc b = bitUpdate s.act.toSpec s.crc b := by
  rw [hinv.table_eq h, nibUpdate_tgen (hinv.valid h) (hinv.crc_fits h)]

theorem BlockInv.bitUpdate_fits {s : State} (hinv : BlockInv s) (h : s.act.cfgv = true) (b : Byte) :
    (bitUpdate s.act.toSpec s.crc b).toNat < 2 ^ s.act.bits :=
  Machine.bitUpdate_fits (hinv.valid h) (hinv.crc_fits h) b

/-! ## The operations that keep it -/

/-- The queue, the reply, RESULT and the staging registers are no part of the invariant. -/
theorem BlockInv.of_same_registers {s t : State} (hinv : BlockInv s) (hcatalog : t.catalog = s.catalog) (hact : t.act = s.act)
    (hcrc : t.crc = s.crc) (htable : t.table = s.table) (herrors : ErrorRecordOk t) : BlockInv t where
  catalog := hcatalog.trans hinv.catalog
  act := by rw [ActOk, hact]; exact hinv.act
  crc := by rw [CrcFits, hact, hcrc]; exact hinv.crc
  table := by rw [TableOk, hact, htable]; exact hinv.table
  errors := herrors

theorem BlockInv.withPending {s : State} (hinv : BlockInv s) (xs : List Input) : BlockInv { s with pending := xs } :=
  hinv.of_same_registers rfl rfl rfl rfl hinv.errors

theorem BlockInv.withReply {s : State} (hinv : BlockInv s) (r : Reply) : BlockInv { s with reply := r } :=
  hinv.of_same_registers rfl rfl rfl rfl hinv.errors

theorem BlockInv.withResult {s : State} (hinv : BlockInv s) (v : Word) : BlockInv { s with result := v } :=
  hinv.of_same_registers rfl rfl rfl rfl hinv.errors

theorem BlockInv.withStg {s : State} (hinv : BlockInv s) (sp : Spec) : BlockInv { s with stg := sp } :=
  hinv.of_same_registers rfl rfl rfl rfl hinv.errors

theorem BlockInv.withCrc {s : State} (hinv : BlockInv s) {v : Word} (hv : s.act.cfgv = true → v.toNat < 2 ^ s.act.bits) :
    BlockInv { s with crc := v } :=
  ⟨hinv.catalog, hinv.act, fun h => fits_iff_and_not_mask.mpr (hv h), hinv.table, hinv.errors⟩

/-- A recorded error has a code from 1 to 4 (60_exceptions.md R200). -/
theorem code_toNat_bounds (e : ErrorKind) : e.code ≠ 0 ∧ e.code.toNat ≤ 4 := by cases e <;> decide

theorem errorRecordOk_raiseError {s : State} (h : ErrorRecordOk s) (e : ErrorKind) (c : Word) :
    ErrorRecordOk (raiseError e c s) := by
  obtain ⟨hcode, -⟩ := h
  obtain ⟨hne, hle⟩ := code_toNat_bounds e
  by_cases herr : s.err = 0
  · rw [raiseError_of_clear e c s herr]
    exact ⟨hle, fun hzero => absurd hzero hne⟩
  · rw [raiseError_of_recorded e c s herr]
    exact ⟨hcode, fun hzero => absurd hzero herr⟩

theorem BlockInv.raiseError {s : State} (hinv : BlockInv s) (e : ErrorKind) (c : Word) : BlockInv (raiseError e c s) :=
  hinv.of_same_registers (raiseError_catalog ..) (raiseError_act ..) (raiseError_crc ..) (raiseError_table ..)
    (errorRecordOk_raiseError hinv.errors e c)

theorem BlockInv.clearErrors {s : State} (hinv : BlockInv s) : BlockInv (clearErrors s) :=
  hinv.of_same_registers rfl rfl rfl rfl ⟨Nat.zero_le 4, fun _ => ⟨rfl, rfl⟩⟩

/-- Loading a valid spec with a selector code that belongs to it keeps the invariant. -/
theorem BlockInv.loadSpec {s : State} (hinv : BlockInv s) {sp : Spec} {k : Byte} (hvalid : sp.valid = true)
    (hsel : k = 0xFF ∨ ∃ h : k.toNat < 8, sp = catalogRom[k.toNat]) : BlockInv (loadSpec sp k s) := by
  obtain ⟨-, -, hinit, -⟩ := sp.valid_iff.mp hvalid
  exact ⟨hinv.catalog, ⟨fun _ => ⟨hvalid, hsel⟩, Bool.noConfusion⟩, fun _ => fits_iff_and_not_mask.mpr hinit,
    ⟨fun _ => rfl, Bool.noConfusion⟩, hinv.errors⟩

/-- Reset leaves no spec active, and the catalog as it was. -/
theorem blockInv_resetBlock {s : State} (hcatalog : CatalogOk s) : BlockInv (resetBlock s) :=
  ⟨hcatalog, ⟨Bool.noConfusion, fun _ => rfl⟩, Bool.noConfusion, ⟨Bool.noConfusion, fun _ => rfl⟩,
    ⟨Nat.zero_le 4, fun _ => ⟨rfl, rfl⟩⟩⟩

theorem BlockInv.writeRegister {s : State} (hinv : BlockInv s) (off : Nat) (v : Word) : BlockInv (writeRegister off v s) := by
  have hcrc : s.act.cfgv = true → (Machine.writeRegister off v s).crc.toNat < 2 ^ s.act.bits := fun h => by
    rw [writeRegister_crc]
    split
    · exact and_mask_fits v _
    · exact hinv.crc_fits h
  rw [writeRegister_frame]
  exact (hinv.withCrc hcrc).withStg _

/-! ## Commands and steps -/

theorem exec_keeps_inv {i : Instr} {s t : State} (hinv : BlockInv s) (h : exec i s = .next t) : BlockInv t := by
  cases commandLeaves_of_exec h with
  | error => exact hinv.raiseError _ _
  | nop => exact hinv
  | @select k hk =>
    have hrow : s.catalog[k.toNat] = catalogRom[k.toNat] := by rw [show s.catalog = catalogRom from hinv.catalog]
    rw [hrow]
    exact hinv.loadSpec (catalogRom_valid ⟨k.toNat, hk⟩) (.inr ⟨hk, rfl⟩)
  | config hvalid => exact hinv.loadSpec hvalid (.inl rfl)
  | init hactive =>
    obtain ⟨-, -, hinit, -⟩ := (Spec.valid_iff _).mp (hinv.valid hactive)
    exact hinv.withCrc fun _ => hinit
  | updb b hactive | updr b hactive =>
    exact hinv.withCrc fun _ => hinv.bitUpdate_fits hactive b
  | updn b hactive =>
    rw [hinv.nibUpdate_eq hactive]
    exact hinv.withCrc fun _ => hinv.bitUpdate_fits hactive b
  | final => exact hinv.withResult _
  | clrerr => exact hinv.clearErrors

theorem step_keeps_inv {s t : State} (hinv : BlockInv s) (h : step s = .next t) : BlockInv t := by
  cases stepLeaves_of_step h with
  | idle => exact hinv
  | reset => exact blockInv_resetBlock hinv.catalog
  | read => exact hinv.of_same_registers rfl rfl rfl rfl hinv.errors
  | write => exact ((hinv.withPending _).writeRegister _ _).withReply _
  | illegal => exact ((hinv.withPending _).raiseError _ _).withReply _
  | command _ hexec => exact (exec_keeps_inv (hinv.withPending _) hexec).withReply _

/-- Settles O52: the state after reset is a reset of itself. -/
theorem invariantHoldsAtReset : Obligations.InvariantHoldsAtReset := blockInv_resetBlock (s := State.reset) rfl

/-- Settles O53: a spec is loaded only when valid, every value that reaches CRC fits its width, and an error is recorded with
its code. -/
theorem everyStepKeepsTheInvariant : Obligations.EveryStepKeepsTheInvariant := fun _ _ => step_keeps_inv

end Sys2Proof.Machine
end

section
/-! PROOF. O22 and O23: the error record keeps the first error and steers no command (60_exceptions.md R203, R205). -/

namespace Sys2Proof.Machine

/-- After an error another one leaves ERR and ERRCMD. -/
theorem raiseError_keeps_first {s : State} (herr : s.err ≠ 0) (e : ErrorKind) (c : Word) :
    (raiseError e c s).err = s.err ∧ (raiseError e c s).errcmd = s.errcmd := by
  rw [raiseError_of_recorded e c s herr]
  exact ⟨rfl, rfl⟩

theorem exec_keeps_first_error {i : Instr} {s t : State} (hi : i ≠ .clrerr) (herr : s.err ≠ 0) (h : exec i s = .next t) :
    t.err = s.err ∧ t.errcmd = s.errcmd := by
  cases commandLeaves_of_exec h with
  | error => exact raiseError_keeps_first herr _ _
  | nop | select | config | init | updb | updr | updn | final => exact ⟨rfl, rfl⟩
  | clrerr => exact absurd rfl hi

theorem issueCommand_clrerr : issueCommand .clrerr = .write 0x00 4 0x00000008 := by decide

/-- Settles O22: no case of a step but a reset and the CLRERR word writes a record that is not clear. -/
theorem firstErrorIsSticky : Obligations.FirstErrorIsSticky := by
  intro s t x rest hpending hreset hclrerr herr h
  cases stepLeaves_of_step h with
  | idle | read => exact ⟨rfl, rfl⟩
  | reset hpending' =>
    obtain ⟨rfl, -⟩ := List.cons.inj (hpending.symm.trans hpending')
    exact absurd rfl hreset
  | write => exact ⟨writeRegister_err .., writeRegister_errcmd ..⟩
  | @illegal c tail => exact raiseError_keeps_first (s := { s with pending := tail }) herr _ _
  | @command i u tail hpending' hexec =>
    obtain ⟨rfl, -⟩ := List.cons.inj (hpending.symm.trans hpending')
    have hi : i ≠ .clrerr := fun hi => hclrerr (by rw [hi, issueCommand_clrerr])
    exact exec_keeps_first_error (s := { s with pending := tail }) (t := u) hi herr hexec

/-- The state with another error record. -/
def State.withRecord (s : State) (e : BitVec 4) (o : Bool) (w : Word) : State := { s with err := e, eovf := o, errcmd := w }

/-- No check of a command reads the record. -/
theorem ownError_withRecord (i : Instr) (s : State) (e : BitVec 4) (o : Bool) (w : Word) :
    ownError i (s.withRecord e o w) = ownError i s := by cases i <;> rfl

/-- Two states that differ in the record only still do so after an error. -/
theorem raiseError_withRecord (k : ErrorKind) (c : Word) (s : State) (e : BitVec 4) (o : Bool) (w : Word) :
    raiseError k c s = (raiseError k c (s.withRecord e o w)).withRecord (raiseError k c s).err (raiseError k c s).eovf
      (raiseError k c s).errcmd := by
  unfold raiseError
  split <;> split <;> rfl

/-- Settles O23: a command makes the same checks with any record, and has the same effect on the rest. -/
theorem errorRecordDoesNotSteerCommands : Obligations.ErrorRecordDoesNotSteerCommands := by
  intro i s e o w
  obtain ⟨t, ht⟩ := exec_next_exists i s
  refine ⟨t, ?_⟩
  cases commandLeaves_of_exec ht with
  | error hown => exact ⟨_, ht, exec_of_ownError ((ownError_withRecord i s e o w).trans hown), raiseError_withRecord ..⟩
  | nop => exact ⟨_, ht, exec_nop _, rfl⟩
  | select hk => exact ⟨_, ht, exec_select_of_lt hk _, rfl⟩
  | config hvalid => exact ⟨_, ht, exec_config_of_valid hvalid, rfl⟩
  | init hactive => exact ⟨_, ht, exec_init_of_active hactive, rfl⟩
  | updb b hactive => exact ⟨_, ht, exec_updb_of_active (s := s.withRecord e o w) hactive b, rfl⟩
  | updr b hactive => exact ⟨_, ht, exec_updr_of_active (s := s.withRecord e o w) hactive b, rfl⟩
  | updn b hactive => exact ⟨_, ht, exec_updn_of_active (s := s.withRecord e o w) hactive b, rfl⟩
  | final hactive => exact ⟨_, ht, exec_final_of_active hactive, rfl⟩
  | clrerr => exact ⟨_, ht, exec_clrerr _, rfl⟩

end Sys2Proof.Machine
end

section
/-! PROOF. O44, O45, O46 and O47: which inputs write the staging registers, RESULT, ACT and CRC (10_state.md R22 to R24,
R27). -/

namespace Sys2Proof.Machine

/-- A write to an offset that is no staging register leaves STG. -/
theorem writeRegister_stg_of_notMem {off : Nat} (h : off ∉ [0x10, 0x14, 0x18, 0x1C]) (v : Word) (s : State) :
    (writeRegister off v s).stg = s.stg := by
  obtain ⟨hpoly, hinit, hxorout, hctrl⟩ : off ≠ 0x10 ∧ off ≠ 0x14 ∧ off ≠ 0x18 ∧ off ≠ 0x1C := by simpa using h
  simp [writeRegister_stg, hpoly, hinit, hxorout, hctrl]

/-- Settles O44: a command keeps STG, and so does each input but a write to one of its offsets and a reset. -/
theorem onlyTheHostWritesStaging : Obligations.OnlyTheHostWritesStaging := by
  have hkeeps : ∀ (i : Instr) (s t : State), exec i s = .next t → t.stg = s.stg := fun i s t h => by
    obtain ⟨-, -, hstg, -⟩ := exec_keeps h
    exact hstg
  refine ⟨hkeeps, fun s t h hne => ?_⟩
  cases stepLeaves_of_step h with
  | idle | read => exact absurd rfl hne
  | reset hpending => exact .inr ⟨_, hpending, rfl⟩
  | write hpending =>
    exact .inl ⟨_, _, _, hpending, not_not.mp fun hoff => hne (writeRegister_stg_of_notMem hoff _ _)⟩
  | illegal => exact absurd (raiseError_stg ..) hne
  | command _ hexec => exact absurd (hkeeps _ _ _ hexec) hne

theorem exec_changes_result {i : Instr} {s t : State} (h : exec i s = .next t) (hne : t.result ≠ s.result) :
    i = .final ∧ s.act.cfgv = true ∧ t.result = s.crc ^^^ s.act.xorout := by
  cases commandLeaves_of_exec h with
  | error => exact absurd (raiseError_result ..) hne
  | nop | select | config | init | updb | updr | updn | clrerr => exact absurd rfl hne
  | final hactive => exact ⟨rfl, hactive, rfl⟩

/-- With CRC and xorout within the width, so is what FINAL latches. -/
theorem exec_final_fits {s t : State} (hinv : BlockInv s) (hactive : s.act.cfgv = true) (h : exec .final s = .next t) :
    t.result.toNat < 2 ^ s.act.bits := by
  obtain ⟨-, -, -, hxorout⟩ := (Spec.valid_iff _).mp (hinv.valid hactive)
  obtain rfl := Host.Outcome.next.inj ((exec_final_of_active hactive).symm.trans h)
  exact xor_fits (hinv.crc_fits hactive) hxorout

/-- Settles O45: among the commands only FINAL writes RESULT, and among the other inputs only reset. -/
theorem onlyFinalWritesResult : Obligations.OnlyFinalWritesResult := by
  refine ⟨fun s t h hne => ?_, fun s t => exec_final_fits, fun _ _ => ⟨rfl, rfl⟩⟩
  cases stepLeaves_of_step h with
  | idle | read => exact absurd rfl hne
  | reset hpending => exact .inr ⟨_, hpending, rfl⟩
  | write => exact absurd (writeRegister_result ..) hne
  | illegal => exact absurd (raiseError_result ..) hne
  | command hpending hexec =>
    obtain ⟨rfl, hactive, hresult⟩ := exec_changes_result hexec hne
    exact .inl ⟨_, hpending, hactive, hresult⟩

/-- Settles O46: a command that changes ACT loads a spec, SELECT that of its code and CONFIG the staged one. -/
theorem onlySelectAndConfigWriteAct : Obligations.OnlySelectAndConfigWriteAct := by
  intro s t h hne
  cases stepLeaves_of_step h with
  | idle | read => exact absurd rfl hne
  | reset hpending => exact .inr (.inr ⟨_, hpending, rfl⟩)
  | write => exact absurd (writeRegister_act ..) hne
  | illegal => exact absurd (raiseError_act ..) hne
  | command hpending hexec =>
    cases commandLeaves_of_exec hexec with
    | error => exact absurd (raiseError_act ..) hne
    | nop | init | updb | updr | updn | final | clrerr => exact absurd rfl hne
    | select hk => exact .inl ⟨_, _, hk, hpending, rfl⟩
    | config hvalid => exact .inr (.inl ⟨_, hpending, hvalid, rfl⟩)

theorem exec_changes_crc {i : Instr} {s t : State} (h : exec i s = .next t) (hne : t.crc ≠ s.crc) :
    i ≠ .nop ∧ i ≠ .final ∧ i ≠ .clrerr := by
  cases commandLeaves_of_exec h with
  | error => exact absurd (raiseError_crc ..) hne
  | nop | final | clrerr => exact absurd rfl hne
  | select | config | init | updb | updr | updn => simp

theorem writeRegister_changes_crc {off : Nat} {v : Word} {s : State} (hne : (writeRegister off v s).crc ≠ s.crc) :
    off = 0x08 ∧ s.act.cfgv = true := by
  rw [writeRegister_crc] at hne
  exact (ite_ne_right_iff.mp hne).1

/-- Settles O47: the three commands named keep CRC, and so does each input but a CRC write and a reset. -/
theorem writersOfCrc : Obligations.WritersOfCrc := by
  intro s t h hne
  cases stepLeaves_of_step h with
  | idle | read => exact absurd rfl hne
  | reset hpending => exact .inr (.inr ⟨_, hpending⟩)
  | write hpending =>
    obtain ⟨rfl, hactive⟩ := writeRegister_changes_crc hne
    exact .inr (.inl ⟨_, _, hpending, hactive⟩)
  | illegal => exact absurd (raiseError_crc ..) hne
  | command hpending hexec => exact .inl ⟨_, _, hpending, exec_changes_crc hexec hne⟩

end Sys2Proof.Machine
end

section
/-! PROOF. O17, O41, O42 and O43: what the host sees of the registers through the window (20_memory.md R51, R54;
60_exceptions.md R213). -/

namespace Sys2Proof.Machine

/-! ## The window's place -/

theorem windowOffset_add {off : Nat} (h : off < 0x80) (base : Nat) : windowOffset base (base + off) = some off := by
  simp [windowOffset, h]

theorem windowOffset_of_outside {base addr : Nat} (h : addr < base ∨ base + 0x80 ≤ addr) : windowOffset base addr = none :=
  if_neg (by omega)

theorem access_at_offset {off : Nat} (h : off < 0x80) (base : Nat) (v : Word) :
    readAt base (base + off) = some (.read off 4) ∧ writeAt base (base + off) v = some (.write off 4 v) := by
  simp [readAt, writeAt, windowOffset_add h]

/-- Settles O41: the offset of an address is its distance from the base, whatever the base. -/
theorem windowSitsAtTheBase : Obligations.WindowSitsAtTheBase := by
  refine ⟨fun base addr v => ⟨fun off hlt haddr => haddr ▸ access_at_offset hlt base v, fun hout => ?_⟩,
    fun off v hlt => access_at_offset hlt Config.crcBase v⟩
  simp [readAt, writeAt, windowOffset_of_outside hout]

/-! ## Registers from their reads -/

theorem bool_eq_of_toNat_eq {a b : Bool} (h : a.toNat = b.toNat) : a = b := by
  revert a b
  decide

/-- The view of a CTRL register shows width and reflection (20_memory.md R54). -/
theorem width_reflected_of_ctrlWord_eq {x y : Spec} (h : x.ctrlWord = y.ctrlWord) :
    x.width = y.width ∧ x.reflected = y.reflected := by
  have hnat := congrArg BitVec.toNat h
  rw [ctrlWord_toNat, ctrlWord_toNat] at hnat
  have hx := x.width.isLt
  have hy := y.width.isLt
  exact ⟨BitVec.eq_of_toNat_eq (by omega), bool_eq_of_toNat_eq (by omega)⟩

/-- STATUS shows the selector code, the errors and CFGV (10_state.md R29). -/
theorem fields_of_statusWord_eq {s t : State} (h : statusWord s = statusWord t) :
    s.act.sel = t.act.sel ∧ s.err = t.err ∧ s.eovf = t.eovf ∧ s.act.cfgv = t.act.cfgv := by
  have hnat := congrArg BitVec.toNat h
  rw [statusWord_toNat, statusWord_toNat] at hnat
  have herr := s.err.isLt
  have herr' := t.err.isLt
  have heovf := s.eovf.toNat_le
  have heovf' := t.eovf.toNat_le
  have hcfgv := s.act.cfgv.toNat_le
  have hcfgv' := t.act.cfgv.toNat_le
  exact ⟨BitVec.eq_of_toNat_eq (by omega), BitVec.eq_of_toNat_eq (by omega), bool_eq_of_toNat_eq (by omega),
    bool_eq_of_toNat_eq (by omega)⟩

/-- A spec is its CTRL view and its three values. -/
theorem spec_eq_of_views {x y : Spec} (hctrl : x.ctrlWord = y.ctrlWord) (hpoly : x.poly = y.poly) (hinit : x.init = y.init)
    (hxorout : x.xorout = y.xorout) : x = y := by
  obtain ⟨hwidth, hreflected⟩ := width_reflected_of_ctrlWord_eq hctrl
  exact (Spec.mk.injEq ..).mpr ⟨hwidth, hreflected, hpoly, hinit, hxorout⟩

theorem activeSpec_eq_of_parts {x y : ActiveSpec} (hspec : x.toSpec = y.toSpec) (hcfgv : x.cfgv = y.cfgv)
    (hsel : x.sel = y.sel) : x = y := (ActiveSpec.mk.injEq ..).mpr ⟨hspec, hcfgv, hsel⟩

theorem table_eq_of_memRead_eq {s t : State} (h : ∀ off, off % 4 = 0 → off < 0x80 → memRead off s = memRead off t) :
    s.table = t.table := by
  refine Vector.ext fun i hi => ?_
  rw [← memRead_table hi s, ← memRead_table hi t]
  exact h _ (by omega) (by omega)

/-- Settles O42: each register is read whole at its offset, but for those that STATUS and the CTRL views hold together. -/
theorem theWindowShowsAllRegisters : Obligations.TheWindowShowsAllRegisters := by
  intro s t h
  have hcrc : s.crc = t.crc := h 0x08 (by decide) (by decide)
  have hresult : s.result = t.result := h 0x0C (by decide) (by decide)
  have herrcmd : s.errcmd = t.errcmd := h 0x30 (by decide) (by decide)
  obtain ⟨hsel, herr, heovf, hcfgv⟩ := fields_of_statusWord_eq (s := s) (t := t) (h 0x04 (by decide) (by decide))
  have hstg : s.stg = t.stg := spec_eq_of_views (h 0x1C (by decide) (by decide)) (h 0x10 (by decide) (by decide))
    (h 0x14 (by decide) (by decide)) (h 0x18 (by decide) (by decide))
  have hspec : s.act.toSpec = t.act.toSpec := spec_eq_of_views (h 0x2C (by decide) (by decide))
    (h 0x20 (by decide) (by decide)) (h 0x24 (by decide) (by decide)) (h 0x28 (by decide) (by decide))
  have hact : s.act = t.act := activeSpec_eq_of_parts hspec hcfgv hsel
  rw [hcrc, hresult, hact, hstg, herr, heovf, herrcmd, table_eq_of_memRead_eq h]

/-! ## What a command leaves of the window -/

/-- A read at an offset depends on the register there alone. -/
theorem memRead_congr {s t : State} {off : Nat} (hstatus : off = 0x04 → statusWord t = statusWord s)
    (hcrc : off = 0x08 → t.crc = s.crc) (hresult : off = 0x0C → t.result = s.result) (hstg : t.stg = s.stg)
    (hact : off ∈ [0x20, 0x24, 0x28, 0x2C] → t.act = s.act) (herrcmd : off = 0x30 → t.errcmd = s.errcmd)
    (htable : 0x40 ≤ off → t.table = s.table) : memRead off t = memRead off s := by
  unfold memRead
  split
  case h_1 => rfl
  case h_2 => exact hstatus rfl
  case h_3 => exact hcrc rfl
  case h_4 => exact hresult rfl
  case h_5 | h_6 | h_7 | h_8 => rw [hstg]
  case h_9 | h_10 | h_11 | h_12 => rw [hact (by decide)]
  case h_13 => exact herrcmd rfl
  case h_14 =>
    split
    case isTrue h => rw [tableEntry, tableEntry, htable h]
    case isFalse => rfl

theorem memRead_setCrc {off : Nat} (h : off ≠ 0x08) (v : Word) (s : State) :
    memRead off { s with crc := v } = memRead off s :=
  memRead_congr (fun _ => rfl) (absurd · h) (fun _ => rfl) rfl (fun _ => rfl) (fun _ => rfl) (fun _ => rfl)

theorem memRead_setResult {off : Nat} (h : off ≠ 0x0C) (v : Word) (s : State) :
    memRead off { s with result := v } = memRead off s :=
  memRead_congr (fun _ => rfl) (fun _ => rfl) (absurd · h) rfl (fun _ => rfl) (fun _ => rfl) (fun _ => rfl)

theorem memRead_raiseError {off : Nat} (h : off ∉ [0x04, 0x30]) (e : ErrorKind) (c : Word) (s : State) :
    memRead off (raiseError e c s) = memRead off s := by
  obtain ⟨hstatus, herrcmd⟩ : off ≠ 0x04 ∧ off ≠ 0x30 := by simpa using h
  exact memRead_congr (absurd · hstatus) (fun _ => raiseError_crc ..) (fun _ => raiseError_result ..) (raiseError_stg ..)
    (fun _ => raiseError_act ..) (absurd · herrcmd) (fun _ => raiseError_table ..)

theorem memRead_clearErrors {off : Nat} (h : off ∉ [0x04, 0x30]) (s : State) :
    memRead off (clearErrors s) = memRead off s := by
  obtain ⟨hstatus, herrcmd⟩ : off ≠ 0x04 ∧ off ≠ 0x30 := by simpa using h
  exact memRead_congr (absurd · hstatus) (fun _ => rfl) (fun _ => rfl) rfl (fun _ => rfl) (absurd · herrcmd) (fun _ => rfl)

theorem memRead_loadSpec {off : Nat} (h : off ∉ [0x04, 0x08, 0x20, 0x24, 0x28, 0x2C] ∧ off < 0x40) (sp : Spec) (k : Byte)
    (s : State) : memRead off (loadSpec sp k s) = memRead off s := by
  obtain ⟨hoff, hlt⟩ := h
  simp only [List.mem_cons, not_or] at hoff
  obtain ⟨hstatus, hcrc, hact⟩ := hoff
  exact memRead_congr (absurd · hstatus) (absurd · hcrc) (fun _ => rfl) rfl
    (fun hmem => absurd hmem (by simpa using hact)) (fun _ => rfl) (absurd · hlt.not_ge)

/-- Settles O43: each outcome of a command writes only registers whose offsets its clause excludes. -/
theorem commandsLeaveOtherRegistersAlone : Obligations.CommandsLeaveOtherRegistersAlone := by
  intro i s t off h _ _ hoff
  cases commandLeaves_of_exec h with
  | error hown =>
    rw [hown] at hoff
    exact memRead_raiseError hoff _ _ _
  | nop => rfl
  | select hk =>
    simp only [ownError, if_pos hk] at hoff
    exact memRead_loadSpec hoff _ _ _
  | config hvalid =>
    simp only [ownError, if_pos hvalid] at hoff
    exact memRead_loadSpec hoff _ _ _
  | init hactive | updb b hactive | updr b hactive | updn b hactive =>
    simp only [ownError, if_pos hactive] at hoff
    exact memRead_setCrc hoff _ _
  | final hactive =>
    simp only [ownError, if_pos hactive] at hoff
    exact memRead_setResult hoff _ _
  | clrerr => exact memRead_clearErrors hoff _

/-! ## The catalog as the host reads it -/

/-- STATUS after a spec is loaded shows its selector code and CFGV. -/
theorem status_of_loadSpec (sp : Spec) (k : Byte) (s : State) :
    Reference.bits (memRead 0x04 (loadSpec sp k s)) 15 8 = k.toNat ∧
    Reference.bits (memRead 0x04 (loadSpec sp k s)) 0 0 = 1 := by
  have hstatus : (memRead 0x04 (loadSpec sp k s)).toNat = k.toNat * 2 ^ 8 + s.err.toNat * 2 ^ 4 + s.eovf.toNat * 2 + 1 :=
    statusWord_toNat (loadSpec sp k s)
  have hk := k.isLt
  have herr := s.err.isLt
  have heovf := s.eovf.toNat_le
  simp only [Reference.bits, hstatus]
  omega

/-- Settles O17: SELECT loads the row, whose values the window shows. -/
theorem selectedRowsReadBack : Obligations.SelectedRowsReadBack := by
  intro s hcatalog row hrow
  have hvalues : ∃ hk : row.1.toNat < 8, (catalogRom[row.1.toNat]).ctrlWord = row.2.1 ∧
      (catalogRom[row.1.toNat]).poly = row.2.2.1 ∧ (catalogRom[row.1.toNat]).init = row.2.2.2.1 ∧
      (catalogRom[row.1.toNat]).xorout = row.2.2.2.2 := by
    simp only [List.mem_cons, List.not_mem_nil, or_false] at hrow
    obtain rfl | rfl | rfl | rfl | rfl | rfl | rfl | rfl := hrow <;> exact ⟨by decide, rfl, rfl, rfl, rfl⟩
  obtain ⟨hk, hctrl, hpoly, hinit, hxorout⟩ := hvalues
  have hload : exec (.select row.1) s = .next (loadSpec catalogRom[row.1.toNat] row.1 s) := by
    rw [exec_select_of_lt hk]
    simp only [hcatalog]
  obtain ⟨hsel, hcfgv⟩ := status_of_loadSpec catalogRom[row.1.toNat] row.1 s
  exact ⟨_, hload, hctrl, hpoly, hinit, hxorout, hinit, hsel, hcfgv⟩

end Sys2Proof.Machine
end

section
/-! PROOF. O14, O30, O31, O32 and O33: the engines compared, and the corner cases of the byte update (41_bitwise.md R122, R123,
R125; 42_nibble.md R144). -/

namespace Sys2Proof.Machine

/-! ## The three engines -/

/-- Settles O30. The idea is `nibStep_tgen`: a table step is four single-bit steps. -/
theorem tableEngineAgreesWithBitSerial : Obligations.TableEngineAgreesWithBitSerial :=
  fun _ _ b hvalid hs => nibUpdate_tgen hvalid hs b

/-- Settles O31: UPDB and UPDR run `bitUpdate`, and under the invariant UPDN is UPDB. -/
theorem theThreeEnginesAgree : Obligations.TheThreeEnginesAgree := by
  intro s b hinv h
  have hupdn := exec_updn_eq_updb hinv h b
  exact ⟨hupdn.trans (exec_updb_of_active h b), hupdn.symm,
    (exec_updr_of_active h b).trans ((exec_updb_of_active h b).symm.trans hupdn.symm)⟩

/-- Settles O32: the byte's place and the eight single-bit steps are linear. -/
theorem byteUpdateIsLinear : Obligations.ByteUpdateIsLinear := by
  intro sp s s' b b'
  have hentered : s ^^^ s' ^^^ sp.placeByte (b ^^^ b') = (s ^^^ sp.placeByte b) ^^^ (s' ^^^ sp.placeByte b') := by
    rw [placeByte_xor]
    ac_rfl
  rw [bitUpdate, hentered, bitSteps_xor, bitUpdate, bitUpdate]

/-- Settles O33: the five folds, evaluated step by step. -/
theorem knownVectorsOfTheSource : Obligations.KnownVectorsOfTheSource := by
  intro row hrow
  simp only [List.mem_cons, List.not_mem_nil, or_false] at hrow
  obtain rfl | rfl | rfl | rfl | rfl := hrow <;>
    simp [catalogRom, Vector.get, foldBytes, bitUpdate, Spec.placeByte, byteLow, byteHigh, Spec.bits, Spec.bitSteps,
      Spec.bitStep, stepR, stepN, mask]

/-! ## Steps with polynomial 0 -/

/-- With polynomial 0 reflected steps only shift. -/
theorem bitSteps_reflected_of_poly_zero {sp : Spec} (hp : sp.poly = 0) (hr : sp.reflected = true) :
    ∀ (n : Nat) (s : Word), sp.bitSteps n s = s >>> n
  | 0, s => by rw [Spec.bitSteps, BitVec.ushiftRight_zero]
  | n + 1, s => by
    have hstep : sp.bitStep s = s >>> 1 := by simp [Spec.bitStep, hr, stepR, hp]
    rw [Spec.bitSteps, hstep, bitSteps_reflected_of_poly_zero hp hr n, ← BitVec.shiftRight_add, Nat.add_comm]

/-- With polynomial 0 non-reflected steps only shift, within the width. -/
theorem bitSteps_normal_of_poly_zero {sp : Spec} (hp : sp.poly = 0) (hr : ¬ sp.reflected = true) (hw : sp.bits ≤ 32) :
    ∀ (n : Nat) {s : Word}, s.toNat < 2 ^ sp.bits → sp.bitSteps n s = (s <<< n) &&& mask sp.bits
  | 0, s, hs => by rw [Spec.bitSteps, BitVec.shiftLeft_zero, and_mask_of_fits hs]
  | n + 1, s, _ => by
    have hstep : sp.bitStep s = (s <<< 1) &&& mask sp.bits := by simp [Spec.bitStep, hr, stepN, hp]
    rw [Spec.bitSteps, hstep, bitSteps_normal_of_poly_zero hp hr hw n (and_mask_fits _ _)]
    apply BitVec.eq_of_toNat_eq
    rw [shiftLeft_and_mask_toNat _ _ hw, shiftLeft_and_mask_toNat _ _ hw, shiftLeft_and_mask_toNat _ _ hw, Nat.mod_mul_mod,
      mul_assoc, ← pow_add, Nat.add_comm 1 n]

/-- A byte leaves the register in eight steps that only shift. -/
theorem bitSteps_placeByte_of_poly_zero {sp : Spec} (hp : sp.poly = 0) (hvalid : sp.valid = true) (b : Byte) :
    sp.bitSteps 8 (sp.placeByte b) = 0 := by
  have hw := bits_le_of_valid hvalid
  obtain ⟨hwidth, -⟩ := sp.valid_iff.mp hvalid
  have hplace := placeByte_toNat hw b
  apply BitVec.eq_of_toNat_eq
  by_cases hr : sp.reflected = true
  · rw [if_pos hr] at hplace
    rw [bitSteps_reflected_of_poly_zero hp hr, BitVec.toNat_ushiftRight, Nat.shiftRight_eq_div_pow, hplace,
      Nat.div_eq_of_lt b.isLt]
    rfl
  · have hpow : 2 ^ (sp.bits - 8) * 2 ^ 8 = 2 ^ sp.bits := pow_sub_mul_pow 2 (by omega)
    rw [if_neg hr] at hplace
    rw [bitSteps_normal_of_poly_zero hp hr hw 8 (placeByte_fits hvalid b), shiftLeft_and_mask_toNat _ _ hw, hplace, mul_assoc,
      hpow, Nat.mul_mod_left]
    rfl

/-- At width 8 the register holds just a byte, in the place where one enters. -/
theorem placeByte_setWidth {sp : Spec} (hw : sp.bits = 8) {s : Word} (hs : s.toNat < 2 ^ sp.bits) :
    sp.placeByte (s.setWidth 8) = s := by
  rw [hw] at hs
  apply BitVec.eq_of_toNat_eq
  rw [placeByte_toNat (by omega), BitVec.toNat_setWidth, Nat.mod_eq_of_lt hs, hw]
  simp

/-- With polynomial 0 the byte update is a plain shift of the register with the byte in it (41_bitwise.md section 3). -/
theorem bitUpdate_of_poly_zero {sp : Spec} (hvalid : sp.valid = true) (hp : sp.poly = 0) {s : Word}
    (hs : s.toNat < 2 ^ sp.bits) (b : Byte) :
    bitUpdate sp s b = (if sp.bits = 8 then 0
      else if sp.reflected then (s ^^^ b.setWidth 32) >>> 8
      else ((s ^^^ (b.setWidth 32 <<< (sp.bits - 8))) <<< 8) &&& mask sp.bits : Word) := by
  unfold bitUpdate
  split_ifs with hw hr
  · rw [← placeByte_setWidth hw hs, ← placeByte_xor, bitSteps_placeByte_of_poly_zero hp hvalid]
  · rw [bitSteps_reflected_of_poly_zero hp hr, Spec.placeByte, if_pos hr, byteLow]
  · rw [bitSteps_normal_of_poly_zero hp hr (bits_le_of_valid hvalid) 8 (xor_fits hs (placeByte_fits hvalid b)),
      Spec.placeByte, if_neg hr, byteHigh, byteLow]

/-- Settles O14: `bitUpdate` of two zeros is 0, and with polynomial 0 no step adds anything. -/
theorem zeroInputsOnlyShift : Obligations.ZeroInputsOnlyShift := by
  refine fun s => ⟨fun h hcrc => ?_, fun b hinv h hp => ?_⟩
  · rw [exec_updb_of_active h, hcrc, bitUpdate_zero, ← hcrc]
  · rw [exec_updb_of_active h, bitUpdate_of_poly_zero (hinv.valid h) hp (hinv.crc_fits h)]

end Sys2Proof.Machine
end

section
/-! PROOF. O26: the data bits of a byte enter one at a time (20_memory.md R60). -/

namespace Sys2Proof.Machine

/-- The spec whose steps only shift. -/
def Spec.shift (sp : Spec) : Spec := { sp with poly := 0 }

theorem valid_shift {sp : Spec} (hvalid : sp.valid = true) : sp.shift.valid = true := by
  obtain ⟨hwidth, -, hvalues⟩ := sp.valid_iff.mp hvalid
  exact (Spec.valid_iff _).mpr ⟨hwidth, Nat.two_pow_pos _, hvalues⟩

/-- The bit that leaves the register in the next step. -/
def Spec.outBit (sp : Spec) (s : Word) : Bool := if sp.reflected then s.getLsbD 0 else s.getLsbD (sp.bits - 1)

/-- The bits that leave in `n` steps that only shift, in order. -/
def Spec.outBits (sp : Spec) : Nat → Word → List Bool
  | 0, _ => []
  | n + 1, s => sp.outBit s :: sp.outBits n (sp.shift.bitStep s)

/-- A data bit decides with the leaving bit whether the polynomial is added to the shifted register. -/
theorem feedBit_eq (sp : Spec) (s : Word) (d : Bool) :
    Reference.feedBit sp s d = sp.shift.bitStep s ^^^ if sp.outBit s ^^ d then sp.poly else 0 := by
  by_cases hr : sp.reflected = true
  · simp [Reference.feedBit, Spec.bitStep, Spec.shift, Spec.outBit, hr, stepR]
  · simp [Reference.feedBit, Spec.bitStep, Spec.shift, Spec.outBit, Spec.bits, hr, stepN]

/-- A single-bit step is the feed of a data bit 0. -/
theorem bitStep_eq_feedBit (sp : Spec) (s : Word) : sp.bitStep s = Reference.feedBit sp s false := by
  by_cases hr : sp.reflected = true
  · simp only [Reference.feedBit, Spec.bitStep, stepR, if_pos hr, Bool.xor_false]
    split <;> simp
  · simp only [Reference.feedBit, Spec.bitStep, stepN, if_neg hr, Bool.xor_false]
    split <;> simp

theorem outBit_xor (sp : Spec) (a b : Word) : sp.outBit (a ^^^ b) = (sp.outBit a ^^ sp.outBit b) := by
  unfold Spec.outBit
  split <;> exact BitVec.getLsbD_xor

/-- Data that stands in the register enters by its leaving bit, and the rest of it is shifted along. -/
theorem bitStep_xor_data (sp : Spec) (s x : Word) :
    sp.bitStep (s ^^^ x) = Reference.feedBit sp s (sp.outBit x) ^^^ sp.shift.bitStep x := by
  rw [bitStep_eq_feedBit, feedBit_eq, feedBit_eq, bitStep_xor, outBit_xor, Bool.xor_false]
  ac_rfl

theorem bitSteps_xor_data (sp : Spec) : ∀ (n : Nat) (s x : Word),
    sp.bitSteps n (s ^^^ x) = (sp.outBits n x).foldl (Reference.feedBit sp) s ^^^ sp.shift.bitSteps n x
  | 0, _, _ => rfl
  | n + 1, s, x => by
    rw [Spec.bitSteps, bitStep_xor_data, bitSteps_xor_data sp n]
    rfl

/-- The bit that leaves in step `i` is that of the value shifted `i` times. -/
theorem outBits_eq_map (sp : Spec) : ∀ (n : Nat) (x : Word),
    sp.outBits n x = (List.range n).map fun i => sp.outBit (sp.shift.bitSteps i x)
  | 0, _ => rfl
  | n + 1, x => by
    rw [Spec.outBits, outBits_eq_map sp n, List.range_succ_eq_map, List.map_cons, List.map_map]
    rfl

theorem getLsbD_top_shiftLeft_and_mask {w i : Nat} (hw : w ≤ 32) (hi : i < w) (s : Word) :
    ((s <<< i) &&& mask w).getLsbD (w - 1) = s.getLsbD (w - 1 - i) := by
  have htop : w - 1 < w := by omega
  have hin : w - 1 < 32 := by omega
  have hle : ¬ w - 1 < i := by omega
  rw [BitVec.getLsbD_and, getLsbD_mask, BitVec.getLsbD_shiftLeft, decide_eq_true htop, decide_eq_true hin,
    decide_eq_false hle, Bool.not_false, Bool.and_true, Bool.and_true, Bool.true_and]

theorem getLsbD_byteHigh (b : Byte) {w i : Nat} (hi : w - 8 ≤ i) (hlt : i < 32) :
    (byteHigh b w).getLsbD i = b.getLsbD (i - (w - 8)) := by
  have hle : i - (w - 8) < 32 := by omega
  rw [byteHigh, byteLow, BitVec.getLsbD_shiftLeft, BitVec.getLsbD_setWidth]
  simp [hlt, hi.not_gt, hle, -tsub_le_iff_right]

/-- A reflected byte leaves bit 0 first. -/
theorem outBit_placeByte_of_reflected {sp : Spec} (hr : sp.reflected = true) (b : Byte) {i : Nat} (hi : i < 8) :
    sp.outBit (sp.shift.bitSteps i (sp.placeByte b)) = b.getLsbD i := by
  have hin : i < 32 := by omega
  rw [bitSteps_reflected_of_poly_zero (sp := sp.shift) rfl hr, Spec.outBit, if_pos hr, Spec.placeByte, if_pos hr, byteLow,
    BitVec.getLsbD_ushiftRight, BitVec.getLsbD_setWidth, Nat.add_zero, decide_eq_true hin, Bool.true_and]

/-- A byte that is not reflected leaves bit 7 first. -/
theorem outBit_placeByte_of_normal {sp : Spec} (hr : ¬ sp.reflected = true) (hvalid : sp.valid = true) (b : Byte) {i : Nat}
    (hi : i < 8) : sp.outBit (sp.shift.bitSteps i (sp.placeByte b)) = b.getLsbD (7 - i) := by
  have hw := bits_le_of_valid hvalid
  obtain ⟨hwidth, -⟩ := sp.valid_iff.mp hvalid
  have hindex : sp.bits - 1 - i - (sp.bits - 8) = 7 - i := by omega
  calc sp.outBit (sp.shift.bitSteps i (sp.placeByte b))
      = ((byteHigh b sp.bits <<< i) &&& mask sp.bits).getLsbD (sp.bits - 1) := by
        rw [bitSteps_normal_of_poly_zero (sp := sp.shift) rfl hr hw i (placeByte_fits hvalid b), Spec.outBit, if_neg hr,
          Spec.placeByte, if_neg hr]
        rfl
    _ = (byteHigh b sp.bits).getLsbD (sp.bits - 1 - i) := getLsbD_top_shiftLeft_and_mask hw (by omega) _
    _ = b.getLsbD (7 - i) := by rw [getLsbD_byteHigh b (by omega) (by omega), hindex]

/-- The byte in its place leaves with its bits in their order. -/
theorem outBits_placeByte {sp : Spec} (hvalid : sp.valid = true) (b : Byte) :
    sp.outBits 8 (sp.placeByte b) = Reference.bitOrder sp b := by
  rw [outBits_eq_map, Reference.bitOrder]
  split
  case isTrue hr => exact List.map_congr_left fun i hi => outBit_placeByte_of_reflected hr b (List.mem_range.mp hi)
  case isFalse hr => exact List.map_congr_left fun i hi => outBit_placeByte_of_normal hr hvalid b (List.mem_range.mp hi)

/-- Settles O26: after eight steps the byte has left the register, its bits having entered one by one. -/
theorem dataBitsEnterInReflectedOrder : Obligations.DataBitsEnterInReflectedOrder := by
  intro sp s b hvalid _
  have hleft : sp.shift.bitSteps 8 (sp.placeByte b) = 0 :=
    bitSteps_placeByte_of_poly_zero (sp := sp.shift) rfl (valid_shift hvalid) b
  rw [bitUpdate, bitSteps_xor_data, outBits_placeByte hvalid, hleft]
  exact BitVec.xor_zero

end Sys2Proof.Machine
end

section
/-! PROOF. O29: the table is linear in its index (42_nibble.md R145). -/

namespace Sys2Proof.Machine

theorem placeNibble_xor (sp : Spec) (i j : BitVec 4) :
    sp.placeNibble (i ^^^ j).toNat = sp.placeNibble i.toNat ^^^ sp.placeNibble j.toNat := by
  have hofNat : ∀ x : BitVec 4, BitVec.ofNat 32 x.toNat = x.setWidth 32 := fun x => BitVec.ofNat_toNat ..
  unfold Spec.placeNibble
  split
  · rw [hofNat, hofNat, hofNat, BitVec.setWidth_xor]
  · rw [hofNat, hofNat, hofNat, BitVec.setWidth_xor, BitVec.shiftLeft_xor_distrib]

theorem tgenEntry_xor (sp : Spec) (i j : BitVec 4) :
    tgenEntry sp (i ^^^ j).toNat = tgenEntry sp i.toNat ^^^ tgenEntry sp j.toNat := by
  rw [tgenEntry, placeNibble_xor, bitSteps_xor, tgenEntry, tgenEntry]

theorem tgenEntry_zero (sp : Spec) : tgenEntry sp 0 = 0 := by
  have hplace : sp.placeNibble 0 = 0 := by simp [Spec.placeNibble]
  rw [tgenEntry, hplace, bitSteps_zero]

/-- Index 8 reaches bit 0 in three steps, and the fourth adds the polynomial. -/
theorem tgenEntry_eight_of_reflected {sp : Spec} (hr : sp.reflected = true) : tgenEntry sp 8 = sp.poly := by
  have hplace : sp.placeNibble 8 = 8 := by simp [Spec.placeNibble, hr]
  have hshift : sp.bitSteps 3 8 = 1 := by
    rw [bitSteps_reflected_shift hr 3 8 (by decide)]
    decide
  rw [tgenEntry, hplace, bitSteps_add sp 3 1, hshift]
  simp [Spec.bitSteps, Spec.bitStep, hr, stepR]

/-- A non-reflected step drops a top bit that stands alone, and adds the polynomial. -/
theorem bitStep_of_top_bit {sp : Spec} (hr : sp.reflected = false) (hw : sp.bits ≤ 32) (hpos : 1 ≤ sp.bits) {s : Word}
    (hs : s.toNat = 2 ^ (sp.bits - 1)) : sp.bitStep s = sp.poly := by
  have hout : s.getLsbD (sp.bits - 1) = true := by rw [BitVec.getLsbD, hs, Nat.testBit_two_pow_self]
  have hrest : (s <<< 1) &&& mask sp.bits = 0 := by
    apply BitVec.eq_of_toNat_eq
    rw [shiftLeft_and_mask_toNat _ _ hw, hs, pow_sub_mul_pow 2 hpos, Nat.mod_self]
    rfl
  rw [Spec.bitStep, if_neg (by simp [hr]), stepN, if_pos hout, hrest]
  exact BitVec.zero_xor

/-- Index 1 reaches the top bit in three steps, and the fourth adds the polynomial. -/
theorem tgenEntry_one_of_normal {sp : Spec} (hr : sp.reflected = false) (hvalid : sp.valid = true) :
    tgenEntry sp 1 = sp.poly := by
  have hw := bits_le_of_valid hvalid
  have h4 := four_le_bits_of_valid hvalid
  have hplace : (sp.placeNibble 1).toNat = 2 ^ (sp.bits - 4) := by
    rw [placeNibble_toNat hw (by decide), if_neg (by simp [hr]), one_mul]
  have hshift : sp.bitSteps 3 (sp.placeNibble 1) = (sp.placeNibble 1 <<< 3) &&& mask sp.bits := by
    refine bitSteps_normal_shift hr hw 3 _ (by omega) (placeNibble_fits hvalid (by decide)) fun i hi => ?_
    have hne : sp.bits - 4 ≠ i := by omega
    rw [BitVec.getLsbD, hplace, Nat.testBit_two_pow_of_ne hne]
  have htop : (sp.bitSteps 3 (sp.placeNibble 1)).toNat = 2 ^ (sp.bits - 1) := by
    rw [hshift, shiftLeft_and_mask_toNat _ _ hw, hplace, ← pow_add]
    have hexp : sp.bits - 4 + 3 = sp.bits - 1 := by omega
    rw [hexp, Nat.mod_eq_of_lt (Nat.pow_lt_pow_right (by decide) (by omega))]
  rw [tgenEntry, bitSteps_add sp 3 1]
  exact bitStep_of_top_bit hr hw (by omega) htop

/-- Settles O29: the index enters linearly, and of one bit only the step that drops it adds the polynomial. -/
theorem tableIsLinearInItsIndex : Obligations.TableIsLinearInItsIndex := by
  refine fun sp hvalid => ⟨?_, fun hr => ?_, fun hr => ?_, fun i j => ?_⟩
  · rw [tgen_getElem, tgenEntry_zero]
  · rw [tgen_getElem, tgenEntry_eight_of_reflected hr]
  · rw [tgen_getElem, tgenEntry_one_of_normal hr hvalid]
  · rw [tgen_get, tgen_get, tgen_get]
    exact tgenEntry_xor sp i j

end Sys2Proof.Machine
end

section
/-! PROOF. O39 and O40: repeated accesses, and the order of the staging writes (20_memory.md R61; 70_reset_and_hazards.md
R232). -/

namespace Sys2Proof.Machine

/-! ## Repeated accesses -/

/-- A second write of the same value to the same register changes nothing more. -/
theorem writeRegister_idem (off : Nat) (v : Word) (s : State) :
    writeRegister off v (writeRegister off v s) = writeRegister off v s := by
  have hcrc : (writeRegister off v (writeRegister off v s)).crc = (writeRegister off v s).crc := by
    simp only [writeRegister_crc, writeRegister_act]
    split <;> rfl
  have hstg : (writeRegister off v (writeRegister off v s)).stg = (writeRegister off v s).stg := by
    simp only [writeRegister_stg]
    split_ifs <;> rfl
  rw [writeRegister_frame off v (writeRegister off v s), hcrc, hstg]

theorem writeRegister_withReply (off : Nat) (v : Word) (s : State) (r : Reply) :
    writeRegister off v { s with reply := r } = { writeRegister off v s with reply := r } := by
  unfold writeRegister writeCrc; split <;> (try split) <;> rfl

/-- The word of UPDB 0 folds a byte each time it is written. -/
theorem serve_updb_zero {s : State} (h : s.act.cfgv = true) :
    serve (.write 0x00 4 0x00000004) s = .next { s with crc := bitUpdate s.act.toSpec s.crc 0, reply := .ack } := by
  have hword : issueCommand (.updb 0) = .write 0x00 4 0x00000004 := by decide
  rw [← hword]
  exact serve_issueCommand (exec_updb_of_active h 0)

/-- Where a byte 0 moves CRC on, UPDB 0 twice is not UPDB 0 once. -/
theorem serve_updb_zero_twice {s : State} (h : s.act.cfgv = true)
    (hcrc : bitUpdate s.act.toSpec (bitUpdate s.act.toSpec s.crc 0) 0 ≠ bitUpdate s.act.toSpec s.crc 0) :
    ∃ t u, serve (.write 0x00 4 0x00000004) s = .next t ∧ serve (.write 0x00 4 0x00000004) t = .next u ∧ u ≠ t :=
  ⟨_, _, serve_updb_zero h, serve_updb_zero h, fun hsame => hcrc (congrArg State.crc hsame)⟩

theorem serve_read_idem {s t : State} {off : Nat} (h : serve (.read off 4) s = .next t) :
    serve (.read off 4) t = .next t ∧ { t with reply := s.reply } = s := by
  rw [serve] at h
  split at h
  case isFalse => cases h
  case isTrue ha =>
    obtain rfl := Host.Outcome.next.inj h
    exact ⟨if_pos ha, rfl⟩

theorem serve_write_idem {s t : State} {off : Nat} {v : Word} (hoff : off ≠ 0x00) (h : serve (.write off 4 v) s = .next t) :
    serve (.write off 4 v) t = .next t := by
  rw [serve, memWrite, if_neg hoff, withReply] at h
  split at h
  case isFalse => cases h
  case isTrue ha =>
    obtain rfl := Host.Outcome.next.inj h
    rw [serve, if_pos ha, memWrite, if_neg hoff, withReply, writeRegister_withReply, writeRegister_idem]

/-- Settles O39: a read and a register write find what they leave; UPDB 0 after SELECT of CRC16-CCITT does not. -/
theorem writesButCommandsAreIdempotent : Obligations.WritesButCommandsAreIdempotent := by
  refine ⟨fun s t off => serve_read_idem, fun s t off v => serve_write_idem, ?_⟩
  have hinv : BlockInv (loadSpec catalogRom[4] 4 State.reset) :=
    invariantHoldsAtReset.loadSpec (catalogRom_valid 4) (.inr ⟨by decide, rfl⟩)
  have hcrc : bitUpdate catalogRom[4] (bitUpdate catalogRom[4] 0xFFFF 0) 0 ≠ bitUpdate catalogRom[4] 0xFFFF 0 := by
    have honce : bitUpdate catalogRom[4] 0xFFFF 0 = 0xE1F0 := by decide
    have htwice : bitUpdate catalogRom[4] 0xE1F0 0 = 0x1D0F := by decide
    rw [honce, htwice]
    decide
  obtain ⟨t, u, ht, hu, hne⟩ := serve_updb_zero_twice (s := loadSpec catalogRom[4] 4 State.reset) rfl hcrc
  exact ⟨_, t, u, hinv, ht, hu, hne⟩

/-! ## The staging writes -/

/-- The four writes that stage a spec. -/
def stagingWrites (sp : Spec) : List Input :=
  [.write 0x10 4 sp.poly, .write 0x14 4 sp.init, .write 0x18 4 sp.xorout, .write 0x1C 4 sp.ctrlWord]

/-- What an input writes to the staging registers. -/
def stage (stg : Spec) (x : Input) : Spec :=
  match x with
  | .write 0x10 _ v => { stg with poly := v }
  | .write 0x14 _ v => { stg with init := v }
  | .write 0x18 _ v => { stg with xorout := v }
  | .write 0x1C _ v => { stg with width := v.extractLsb' 0 8, reflected := v.getLsbD 8 }
  | _ => stg

theorem step_of_stagingWrite {s : State} {sp : Spec} {x : Input} {rest : List Input} (hx : x ∈ stagingWrites sp)
    (hpending : s.pending = x :: rest) :
    step s = .next { s with stg := stage s.stg x, pending := rest, reply := .ack } := by
  simp only [stagingWrites, List.mem_cons, List.not_mem_nil, or_false] at hx
  obtain rfl | rfl | rfl | rfl := hx <;> exact step_of_write rfl hpending rfl

/-- The staging writes reach different parts of STG. -/
theorem stage_comm {sp : Spec} {x y : Input} (hx : x ∈ stagingWrites sp) (hy : y ∈ stagingWrites sp) (stg : Spec) :
    stage (stage stg x) y = stage (stage stg y) x := by
  simp only [stagingWrites, List.mem_cons, List.not_mem_nil, or_false] at hx hy
  obtain rfl | rfl | rfl | rfl := hx <;> obtain rfl | rfl | rfl | rfl := hy <;> rfl

/-- A CTRL view written to STG_CTRL stages the width and the reflection it shows (10_state.md R28). -/
theorem fields_of_ctrlWord (sp : Spec) :
    sp.ctrlWord.extractLsb' 0 8 = sp.width ∧ sp.ctrlWord.getLsbD 8 = sp.reflected := by
  have hwidth := sp.width.isLt
  have hview := ctrlWord_toNat sp
  refine ⟨BitVec.eq_of_toNat_eq ?_, ?_⟩
  · rw [BitVec.extractLsb'_toNat, Nat.shiftRight_zero, hview]
    omega
  · rw [Bool.eq_iff_iff, getLsbD_eq_true_iff_div_mod, hview]
    cases sp.reflected <;> simp <;> omega

/-- All four writes stage the whole spec, whatever was staged. -/
theorem foldl_stage_stagingWrites (sp stg : Spec) : (stagingWrites sp).foldl stage stg = sp := by
  obtain ⟨hwidth, hreflected⟩ := fields_of_ctrlWord sp
  calc (stagingWrites sp).foldl stage stg
      = { width := sp.ctrlWord.extractLsb' 0 8, reflected := sp.ctrlWord.getLsbD 8, poly := sp.poly, init := sp.init,
          xorout := sp.xorout } := rfl
    _ = sp := by rw [hwidth, hreflected]

/-- A run over staging writes leaves STG as they stage it in turn. -/
theorem run_stagingWrites {sp : Spec} {rest : List Input} : ∀ (xs : List Input) {s : State}, (∀ x ∈ xs, x ∈ stagingWrites sp) →
    s.pending = xs ++ rest → ∃ r, run xs.length s = .next { s with stg := xs.foldl stage s.stg, pending := rest, reply := r }
  | [], s, _, hpending => by
    obtain rfl : s.pending = rest := hpending
    exact ⟨s.reply, rfl⟩
  | x :: xs, s, hxs, hpending => by
    rw [List.forall_mem_cons] at hxs
    obtain ⟨hx, hxs⟩ := hxs
    rw [List.length_cons, run_succ_of_next (step_of_stagingWrite hx hpending)]
    exact run_stagingWrites xs hxs rfl

/-- Settles O40: the staging writes commute, so every order stages the spec that CONFIG then loads. -/
theorem stagingWritesComeInAnyOrder : Obligations.StagingWritesComeInAnyOrder := by
  intro s sp xs rest hperm hpending hvalid
  have hmem : ∀ x ∈ xs, x ∈ stagingWrites sp := fun x hx => hperm.mem_iff.mp hx
  have hlength : xs.length = 4 := hperm.length_eq
  have hstaged : xs.foldl stage s.stg = sp :=
    (hperm.foldl_eq' (fun x hx y hy => stage_comm (hmem x hx) (hmem y hy)) s.stg).trans (foldl_stage_stagingWrites sp s.stg)
  obtain ⟨r, hrun⟩ := run_stagingWrites xs hmem hpending
  rw [hlength, hstaged] at hrun
  have hconfig := step_of_issueCommand (s := { s with stg := sp, pending := issueCommand .config :: rest, reply := r }) rfl
    (exec_config_of_valid hvalid)
  rw [run_add (n := 1) hrun, run_succ_of_next hconfig]
  rfl

end Sys2Proof.Machine
end

section
/-! PROOF. O57: the example lines of a listing (30_encoding.md R76). -/

namespace Sys2Proof.Machine

/-- Settles O57: each line is assembled. -/
theorem listingLinesAssemble : Obligations.ListingLinesAssemble := by
  unfold Obligations.ListingLinesAssemble
  decide +kernel

end Sys2Proof.Machine
end

section
/-! PROOF. O54, O55 and O56: streams of bytes, COMPUTE, and a stream that is saved and resumed (43_control.md R162 to R164). -/

namespace Sys2Proof.Machine

/-! ## One input of a stream -/

/-- The bytes an instruction feeds to an engine. -/
def updateBytes : Instr → List Byte
  | .updb b => [b]
  | .updr b => [b]
  | .updn b => [b]
  | _ => []

@[simp] theorem dataOf_issueCommand (i : Instr) : Reference.dataOf (issueCommand i) = updateBytes i := by
  cases i <;> simp [Reference.dataOf, issueCommand, cmdWrite, decode_encode, updateBytes]

theorem dataOf_of_illegal {c : Word} (h : ∀ i, decode c ≠ .ok i) : Reference.dataOf (cmdWrite c) = [] := by
  cases hdecode : decode c with
  | ok i => exact absurd hdecode (h i)
  | error => simp [Reference.dataOf, cmdWrite, hdecode]

theorem dataOf_of_register {off : Nat} (h : off ≠ 0x00) (bytes : Nat) (v : Word) :
    Reference.dataOf (.write off bytes v) = [] := by
  unfold Reference.dataOf
  split
  case h_1 heq => exact absurd (Input.write.inj heq).1 h
  case h_2 => rfl

/-- An instruction keeps a stream unless it is SELECT, CONFIG or INIT. -/
theorem instr_of_keepsStream {i : Instr} (h : Reference.keepsStream (issueCommand i) = true) :
    (∀ k, i ≠ .select k) ∧ i ≠ .config ∧ i ≠ .init := by
  cases i with
  | select | config | init => simp [Reference.keepsStream, issueCommand, cmdWrite, decode_encode] at h
  | nop | updb | updr | updn | final | clrerr => simp

/-- Under the invariant every engine runs the same update (41_bitwise.md R123). -/
theorem exec_update {s : State} (hinv : BlockInv s) (h : s.act.cfgv = true) (e : Engine) (b : Byte) :
    exec (e.update b) s = .next { s with crc := bitUpdate s.act.toSpec s.crc b } := by
  obtain ⟨hupdn, hupdb, hupdr⟩ := theThreeEnginesAgree s b hinv h
  cases e with
  | bitSerial => exact hupdb.trans hupdn
  | reference => exact hupdr.trans hupdn
  | table => exact hupdn

/-- What serving one input of a stream leaves: its bytes folded into CRC, and ACT and the queue as they were. -/
def FoldsInto (s : State) (bs : List Byte) (t : State) : Prop :=
  t.crc = foldBytes s.act.toSpec s.crc bs ∧ t.act = s.act ∧ t.pending = s.pending

theorem exec_in_stream {i : Instr} {s : State} (hinv : BlockInv s) (h : s.act.cfgv = true)
    (hkeeps : Reference.keepsStream (issueCommand i) = true) :
    ∃ t, exec i s = .next t ∧ FoldsInto s (Reference.dataOf (issueCommand i)) t := by
  rw [dataOf_issueCommand]
  obtain ⟨hselect, hconfig, hinit⟩ := instr_of_keepsStream hkeeps
  cases i with
  | nop => exact ⟨_, exec_nop s, rfl, rfl, rfl⟩
  | select k => exact absurd rfl (hselect k)
  | config => exact absurd rfl hconfig
  | init => exact absurd rfl hinit
  | updb b => exact ⟨_, exec_update hinv h .bitSerial b, rfl, rfl, rfl⟩
  | updr b => exact ⟨_, exec_update hinv h .reference b, rfl, rfl, rfl⟩
  | updn b => exact ⟨_, exec_update hinv h .table b, rfl, rfl, rfl⟩
  | final => exact ⟨_, exec_final_of_active h, rfl, rfl, rfl⟩
  | clrerr => exact ⟨_, exec_clrerr s, rfl, rfl, rfl⟩

theorem command_in_stream {c : Word} {s : State} (hinv : BlockInv s) (h : s.act.cfgv = true)
    (hkeeps : Reference.keepsStream (cmdWrite c) = true) :
    ∃ t, command c s = .next t ∧ FoldsInto s (Reference.dataOf (cmdWrite c)) t := by
  obtain ⟨i, rfl⟩ | hillegal := encode_or_illegal c
  · rw [command_encode]
    exact exec_in_stream hinv h hkeeps
  · rw [dataOf_of_illegal hillegal]
    exact ⟨_, command_of_illegal hillegal s, raiseError_crc .., raiseError_act .., raiseError_pending ..⟩

/-- A write to a register other than CRC feeds nothing. -/
theorem writeRegister_in_stream {off : Nat} (hcmd : off ≠ 0x00) (hcrc : off ≠ 0x08) (bytes : Nat) (v : Word) (s : State) :
    FoldsInto s (Reference.dataOf (.write off bytes v)) (writeRegister off v s) := by
  rw [dataOf_of_register hcmd]
  exact ⟨(writeRegister_crc off v s).trans (if_neg fun h => hcrc h.1), writeRegister_act .., writeRegister_pending ..⟩

theorem serve_in_stream {x : Input} {s : State} (hinv : BlockInv s) (h : s.act.cfgv = true)
    (hkeeps : Reference.keepsStream x = true) : ∃ t, serve x s = .next t ∧ FoldsInto s (Reference.dataOf x) t := by
  cases x with
  | reset => cases hkeeps
  | read off bytes => exact ⟨_, if_pos hkeeps, rfl, rfl, rfl⟩
  | write off bytes v =>
    obtain ⟨ha, hcrc⟩ : admitted off bytes = true ∧ off ≠ 0x08 := by
      simp only [Reference.keepsStream, Bool.and_eq_true, decide_eq_true_eq] at hkeeps
      exact hkeeps.1
    obtain ⟨rfl, -, -⟩ := admitted_iff.mp ha
    by_cases hcmd : off = 0x00
    · obtain rfl := hcmd
      obtain ⟨t, ht, hfolds⟩ := command_in_stream hinv h hkeeps
      exact ⟨_, serve_cmdWrite ht, hfolds⟩
    · refine ⟨{ writeRegister off v s with reply := .ack }, ?_, writeRegister_in_stream hcmd hcrc 4 v s⟩
      rw [serve, if_pos ha, memWrite, if_neg hcmd, withReply]

/-! ## Streams -/

theorem foldBytes_append (sp : Spec) (s : Word) (as bs : List Byte) :
    foldBytes sp s (as ++ bs) = foldBytes sp (foldBytes sp s as) bs := List.foldl_append

/-- A run over inputs that keep a stream folds their bytes. -/
theorem run_stream : ∀ (xs : List Input) {s : State} {rest : List Input}, BlockInv s → s.act.cfgv = true →
    s.pending = xs ++ rest → (∀ x ∈ xs, Reference.keepsStream x = true) →
    ∃ t, run xs.length s = .next t ∧ t.crc = foldBytes s.act.toSpec s.crc (xs.flatMap Reference.dataOf) ∧ t.act = s.act ∧
      t.pending = rest
  | [], s, _, _, _, hpending, _ => ⟨s, rfl, rfl, rfl, hpending⟩
  | x :: xs, s, rest, hinv, h, hpending, hkeeps => by
    rw [List.forall_mem_cons] at hkeeps
    obtain ⟨hx, hxs⟩ := hkeeps
    obtain ⟨u, hserve, hcrc, hact, hqueue⟩ := serve_in_stream (hinv.withPending (xs ++ rest)) h hx
    have hstep : step s = .next u := (step_of_pending hpending).trans hserve
    obtain ⟨t, hrun, htcrc, htact, htpending⟩ :=
      run_stream xs (step_keeps_inv hinv hstep) ((congrArg ActiveSpec.cfgv hact).trans h) hqueue hxs
    refine ⟨t, ?_, ?_, htact.trans hact, htpending⟩
    · rw [List.length_cons, run_succ_of_next hstep, hrun]
    · rw [htcrc, hact, hcrc, List.flatMap_cons, foldBytes_append]

/-- Settles O54: each input of a stream folds its bytes and keeps the spec, and the invariant goes on. -/
theorem streamsFoldTheirBytes : Obligations.StreamsFoldTheirBytes := fun _ xs _ => run_stream xs

/-! ## Streams of one engine -/

theorem step_update {s : State} (hinv : BlockInv s) (h : s.act.cfgv = true) {e : Engine} {b : Byte} {rest : List Input}
    (hpending : s.pending = issueCommand (e.update b) :: rest) :
    step s = .next { s with crc := bitUpdate s.act.toSpec s.crc b, pending := rest, reply := .ack } :=
  step_of_issueCommand hpending (exec_update (hinv.withPending rest) h e b)

theorem step_final {s : State} (h : s.act.cfgv = true) {rest : List Input}
    (hpending : s.pending = issueCommand .final :: rest) :
    step s = .next { s with result := s.crc ^^^ s.act.xorout, pending := rest, reply := .ack } :=
  step_of_issueCommand hpending (exec_final_of_active (s := { s with pending := rest }) h)

/-- UPDMANY folds its bytes into CRC, with any engine. -/
theorem run_updMany {e : Engine} {rest : List Input} : ∀ (bs : List Byte) {s : State}, BlockInv s → s.act.cfgv = true →
    s.pending = updMany e bs ++ rest →
    ∃ r, run bs.length s = .next { s with crc := foldBytes s.act.toSpec s.crc bs, pending := rest, reply := r }
  | [], s, _, _, hpending => by
    obtain rfl : s.pending = rest := hpending
    exact ⟨s.reply, rfl⟩
  | b :: bs, s, hinv, h, hpending => by
    have hstep := step_update hinv h hpending
    obtain ⟨r, hrun⟩ := run_updMany bs (step_keeps_inv hinv hstep) h rfl
    exact ⟨r, (run_succ_of_next hstep).trans hrun⟩

/-- UPDMANY and FINAL leave the fold in CRC and the checksum in RESULT, and nothing else is written. -/
theorem run_updMany_final {s : State} (hinv : BlockInv s) (h : s.act.cfgv = true) {e : Engine} {bs : List Byte}
    {rest : List Input} (hpending : s.pending = updMany e bs ++ issueCommand .final :: rest) :
    run (bs.length + 1) s = .next { s with
      crc := foldBytes s.act.toSpec s.crc bs
      result := foldBytes s.act.toSpec s.crc bs ^^^ s.act.xorout
      pending := rest
      reply := .ack } := by
  obtain ⟨r, hrun⟩ := run_updMany bs hinv h hpending
  have hfinal := step_final (s := { s with
    crc := foldBytes s.act.toSpec s.crc bs, pending := issueCommand .final :: rest, reply := r }) h rfl
  exact (run_add hrun).trans (run_succ_of_next (n := 0) hfinal)

/-- Settles O55: INIT loads the initial value, and the rest of COMPUTE is UPDMANY and FINAL. -/
theorem computeLeavesTheChecksum : Obligations.ComputeLeavesTheChecksum := by
  intro s e bs rest hinv h hpending
  have hqueue : s.pending = issueCommand .init :: (updMany e bs ++ issueCommand .final :: rest) := by
    simpa [compute] using hpending
  have hinit := step_of_issueCommand hqueue (exec_init_of_active h)
  exact (run_succ_of_next hinit).trans (run_updMany_final (step_keeps_inv hinv hinit) h rfl)

/-! ## Saved streams -/

/-- What resumes a stream loads its spec again: SELECT of its code from the same ROM, or CONFIG of the same staged spec. -/
theorem exec_reload {s u : State} {c : Instr} (hinv : BlockInv s) (h : s.act.cfgv = true) (hcatalog : CatalogOk u)
    (hc : (c = .select s.act.sel ∧ s.act.sel ≠ 0xFF) ∨ (c = .config ∧ u.stg = s.act.toSpec)) :
    ∃ k, exec c u = .next (loadSpec s.act.toSpec k u) := by
  obtain ⟨hactive, -⟩ := hinv.act
  obtain ⟨hvalid, hsel⟩ := hactive h
  obtain ⟨rfl, hne⟩ | ⟨rfl, hstg⟩ := hc
  · obtain ⟨hlt, hrow⟩ := hsel.resolve_left hne
    have hentry : u.catalog[s.act.sel.toNat] = s.act.toSpec := by
      rw [hrow, show u.catalog = catalogRom from hcatalog]
    exact ⟨_, hentry ▸ exec_select_of_lt hlt u⟩
  · exact ⟨_, hstg ▸ exec_config_of_valid (hstg ▸ hvalid)⟩

/-- A CRC write of a value of the active width puts it back whole (20_memory.md R58). -/
theorem step_restore {s : State} (h : s.act.cfgv = true) {v : Word} (hv : v.toNat < 2 ^ s.act.bits) {rest : List Input}
    (hpending : s.pending = .write 0x08 4 v :: rest) :
    step s = .next { s with crc := v, pending := rest, reply := .ack } := by
  have hwrite : memWrite 0x08 v { s with pending := rest } = .next { s with crc := v, pending := rest } := by
    have hcrc := writeCrc_of_active (s := { s with pending := rest }) h v
    rw [and_mask_of_fits hv] at hcrc
    exact congrArg _ hcrc
  exact step_of_write rfl hpending hwrite

/-- The reload and the CRC write give the spec and the CRC the stream was saved with. -/
theorem run_reload_restore {s u : State} {c : Instr} {rest : List Input} (hinv : BlockInv s) (h : s.act.cfgv = true)
    (huinv : BlockInv u) (hc : (c = .select s.act.sel ∧ s.act.sel ≠ 0xFF) ∨ (c = .config ∧ u.stg = s.act.toSpec))
    (hpending : u.pending = issueCommand c :: .write 0x08 4 s.crc :: rest) :
    ∃ v, run 2 u = .next v ∧ BlockInv v ∧ v.act.cfgv = true ∧ v.act.toSpec = s.act.toSpec ∧ v.crc = s.crc ∧
      v.pending = rest := by
  obtain ⟨k, hload⟩ := exec_reload (u := { u with pending := .write 0x08 4 s.crc :: rest }) hinv h huinv.catalog hc
  have hreload := step_of_issueCommand hpending hload
  have hrestore := step_restore (s := { loadSpec s.act.toSpec k { u with pending := .write 0x08 4 s.crc :: rest } with
    reply := .ack }) rfl (hinv.crc_fits h) rfl
  exact ⟨_, (run_succ_of_next hreload).trans (run_succ_of_next (n := 0) hrestore),
    step_keeps_inv (step_keeps_inv huinv hreload) hrestore, rfl, rfl, rfl, rfl⟩

/-- Settles O56: the reload and the CRC write take two steps, and the rest of the stream runs as it would have. -/
theorem savedStreamsResume : Obligations.SavedStreamsResume := by
  intro s u e e' bs c hinv h huinv hc hs hu
  have hqueue : u.pending = issueCommand c :: .write 0x08 4 s.crc :: (updMany e' bs ++ [issueCommand .final]) := by
    simpa [restore] using hu
  obtain ⟨v, hrun, hvinv, hactive, hspec, hcrc, hpending⟩ := run_reload_restore hinv h huinv hc hqueue
  have hlength : bs.length + 3 = 2 + (bs.length + 1) := by omega
  have hresumed : run (bs.length + 3) u = run (bs.length + 1) v := by rw [hlength, run_add hrun]
  refine ⟨_, _, run_updMany_final hinv h hs, hresumed.trans (run_updMany_final hvinv hactive hpending), ?_, ?_, rfl⟩
  all_goals
    dsimp only
    rw [hspec, hcrc]

end Sys2Proof.Machine
end
